-- ==== Sys2Proof/Word.lean ====
section
/-! DEFINITION. The widths of the block (00_scope.md R7): instruction words, their fields, and the values that
registers and data cells hold. -/

namespace Sys2Proof

/-- A 32-bit instruction word, bit 0 the least significant (R7 `WORD`, R8). -/
abbrev Word := BitVec 32

/-- One byte of a binary image (R56). Data memory has no bytes (R55). -/
abbrev Byte := BitVec 8

/-- The `opcode` field, bits [31:24] (R7 `OPC_W`, R71). -/
abbrev Opcode := BitVec 8

/-- The `reg` field, bits [24:20] (R7 `REG_W`, R71). -/
abbrev RegIndex := BitVec 5

/-- The `operand` field, bits [19:0] (R7 `OPND_W`, R71). -/
abbrev Operand := BitVec 20

/-- What a register or a data cell holds: an `XLEN`-bit two's-complement number (R21, R30, R140).
DESIGN CHOICE (log entry 1): `XLEN = 32`, the default of R7. -/
abbrev Value := BitVec 32

/-- The index of a data cell that exists, 0 to 127 (R50). The validator of R53 is what makes one from an operand,
so no access outside the memory can be written down (R54). -/
abbrev CellIndex := Fin 128

end Sys2Proof
end

