-- ==== Sys2Proof/Config.lean ====
section
/-! DEFINITION. The parameters of the block and of its assembler (00_scope.md R7), and the four mnemonics.
No constant here is left without a body: the spec leaves no value of the hardware undefined. The one open parameter,
`COMMENT_MARKER` (92_eei_decisions.md D11), is an argument of the assembler (log entry 13). -/

namespace Sys2Proof

/-- `NREG`, the number of registers (R7, R21). -/
abbrev Config.nreg : Nat := 32

/-- `MEM_SIZE`, the number of data cells (R7, R30). -/
abbrev Config.memSize : Nat := 128

/-- `XLEN`, the width of a register and of a cell (R7). DESIGN CHOICE (log entry 1): the default, 32. -/
abbrev Config.xlen : Nat := 32

/-- The Encoder's bound on an assembled constant (R92). -/
abbrev Config.constantBound : Nat := 65536

/-- The Encoder's bound on a memory address (R93, 92_eei_decisions.md D10). -/
abbrev Config.addressBound : Nat := 1048576

/-- The four instruction names (R88, R97). The retire trace names one in each event (R162). -/
inductive Mnemonic where
  | loadConstant
  | loadMemory
  | storeToMemory
  | unaryMinus
  deriving DecidableEq, Repr

end Sys2Proof
end

