-- ==== Sys2Proof/Syntax.lean ====
section
/-! DEFINITION. The instructions, one constructor per row of spec/opcode_table.json, with the two decoded fields of
the one format `RO` (30_encoding.md R71, R72). -/

namespace Sys2Proof

/-- A decoded instruction. `reg` is the 5-bit field `w[24:20]`, whose top bit is bit 0 of the opcode (R73);
`operand` is the unsigned 20-bit field `w[19:0]` (R74). -/
inductive Instr where
  /-- `LOAD_CONSTANT`, opcode 13 (R120). -/
  | loadConstant (reg : RegIndex) (operand : Operand)
  /-- `LOAD_MEMORY`, opcode 11 (R121). -/
  | loadMemory (reg : RegIndex) (operand : Operand)
  /-- `STORE_TO_MEMORY`, opcode 21 (R122). -/
  | storeToMemory (reg : RegIndex) (operand : Operand)
  /-- `UNARY_MINUS`, opcode 31 (R141); its `reg` is decoded and ignored. -/
  | unaryMinus (reg : RegIndex) (operand : Operand)
  deriving DecidableEq, Repr

/-- The name of an instruction (R97). -/
def Instr.mnemonic : Instr → Mnemonic
  | .loadConstant _ _ => .loadConstant
  | .loadMemory _ _ => .loadMemory
  | .storeToMemory _ _ => .storeToMemory
  | .unaryMinus _ _ => .unaryMinus

/-- The register field of an instruction (R75). -/
def Instr.reg : Instr → RegIndex
  | .loadConstant r _ => r
  | .loadMemory r _ => r
  | .storeToMemory r _ => r
  | .unaryMinus r _ => r

/-- The operand field of an instruction (R74). -/
def Instr.operand : Instr → Operand
  | .loadConstant _ a => a
  | .loadMemory _ a => a
  | .storeToMemory _ a => a
  | .unaryMinus _ a => a

/-- The instruction with a given name and fields: the format `RO` is the same for all four (R71). -/
def Instr.ofFields (m : Mnemonic) (r : RegIndex) (a : Operand) : Instr :=
  match m with
  | .loadConstant => .loadConstant r a
  | .loadMemory => .loadMemory r a
  | .storeToMemory => .storeToMemory r a
  | .unaryMinus => .unaryMinus r a

end Sys2Proof
end

