-- ==== Sys2Proof/WellFormed.lean ====
section
/-! DEFINITION. Which terms of `Instr` some instruction word stands for. -/

namespace Sys2Proof

/-- An instruction is well formed when its register field lies in 16..31: bit 4 of `reg` is bit 0 of the opcode, and
all four opcodes are odd (30_encoding.md R79). It is the only check: within a recognised opcode every value of bits
[23:20] and every operand decodes (R81), an operand of 128 or more too, which faults at execution (R53). -/
def Instr.wellFormed (i : Instr) : Bool :=
  decide (16 ≤ i.reg.toNat)

end Sys2Proof
end

