-- ==== Sys2Proof/Decode.lean ====
section
/-! DEFINITION. The opcode table, the decoder, the big-endian program image and the packing rule
(30_encoding.md R70 to R84, 20_memory.md R56 and R57). -/

namespace Sys2Proof

/-- Why bytes or a word give no instruction or no program. -/
inductive DecodeError where
  /-- The word's opcode is none of 11, 13, 21 and 31 (R80); it names the opcode. -/
  | unknownOpcode (opcode : Opcode)
  /-- The bytes are not one whole 32-bit word (R70). -/
  | notOneWord (length : Nat)
  /-- The length of a program image is not a multiple of 4 (R57). -/
  | imageLength (length : Nat)
  deriving DecidableEq, Repr

/-- The one opcode table, shared by the Encoder and the block (R77, R98).
UNVERIFIED (log entry 10): the spec's literals were not audited. -/
def opcodeOf : Mnemonic → Opcode
  | .loadConstant => 13
  | .loadMemory => 11
  | .storeToMemory => 21
  | .unaryMinus => 31

/-- The dispatcher: all 8 bits of the opcode are compared, and exactly one of five outcomes is selected, `none` being
ILLEGAL (R77, R78). -/
def dispatch (op : Opcode) : Option Mnemonic :=
  if op = opcodeOf .loadConstant then some .loadConstant
  else if op = opcodeOf .loadMemory then some .loadMemory
  else if op = opcodeOf .storeToMemory then some .storeToMemory
  else if op = opcodeOf .unaryMinus then some .unaryMinus
  else none

/-- `opcode = w[31:24]` (R72). -/
def opcodeField (w : Word) : Opcode := w.extractLsb' 24 8

/-- `reg = w[24:20]` (R72), overlapping bit 0 of the opcode (R73, 90_conflicts.md C1).
UNVERIFIED (log entry 11): the field is kept as the spec's decode formula gives it. -/
def regField (w : Word) : RegIndex := w.extractLsb' 20 5

/-- `operand = w[19:0]` (R72). -/
def operandField (w : Word) : Operand := w.extractLsb' 0 20

/-- Decode one word: the fields of R72, then the dispatch of R77. It reads nothing but the word (R76). -/
def decode (w : Word) : Except DecodeError Instr :=
  match dispatch (opcodeField w) with
  | some m => .ok (.ofFields m (regField w) (operandField w))
  | none => .error (.unknownOpcode (opcodeField w))

/-- Four bytes of an image as a word, the first byte the most significant (R56).
PRESUMED (log entry 12): what "big-endian" means. -/
def wordOfBytes (b0 b1 b2 b3 : Byte) : Word := b0 ++ b1 ++ b2 ++ b3

/-- A word as the four bytes of its image, most significant first (R56). PRESUMED (log entry 12). -/
def bytesOfWord (w : Word) : List Byte :=
  [w.extractLsb' 24 8, w.extractLsb' 16 8, w.extractLsb' 8 8, w.extractLsb' 0 8]

/-- Decode the bytes of one instruction. Total on any bytes. -/
def decodeBytes (bs : List Byte) : Except DecodeError Instr :=
  match bs with
  | [b0, b1, b2, b3] => decode (wordOfBytes b0 b1 b2 b3)
  | _ => .error (.notOneWord bs.length)

/-- The words of an image, four bytes at a time in sequence order; `none` where a word is cut short (R56, R57). -/
def wordsOfImage : List Byte → Option (List Word)
  | [] => some []
  | b0 :: b1 :: b2 :: b3 :: bs => (wordsOfImage bs).map (wordOfBytes b0 b1 b2 b3 :: ·)
  | _ => none

/-- The loader: an image gives a program, or is refused when its length is not a multiple of 4 (R57).
The image has no header and no framing (R56). -/
def loadImage (bs : List Byte) : Except DecodeError (List Word) :=
  match wordsOfImage bs with
  | some ws => .ok ws
  | none => .error (.imageLength bs.length)

/-- The binary image of a program: its words in sequence order, each as 4 bytes (R56). -/
def imageOf (ws : List Word) : List Byte := ws.flatMap bytesOfWord

/-- The packing rule `(opcode << 24) | (reg << 20) | operand` (R82). A register of 16 or more sets bit 24, which is
already set in every opcode of the table (R83). -/
def pack (op : Opcode) (r : RegIndex) (a : Operand) : Word :=
  (op.setWidth 32 <<< 24) ||| (r.setWidth 32 <<< 20) ||| a.setWidth 32

/-- The word of an instruction (R82, R98). -/
def encode (i : Instr) : Word := pack (opcodeOf i.mnemonic) i.reg i.operand

/-- What the decoder reads from an instruction of `nbits` bits whose bits are `w`, laid out as its image's bytes. -/
def decodeTableWord (nbits w : Nat) : Option Instr :=
  match decodeBytes (bytesOfWord (BitVec.ofNat 32 (w % 2 ^ nbits))) with
  | .ok i => some i
  | .error _ => none

end Sys2Proof
end

