-- ==== Sys2Proof/Machine/State.lean ====
section
/-! DEFINITION. The state of the block (10_state.md R20), its reset value (70_reset_and_hazards.md R180), and the
reasons the model stops. -/

namespace Sys2Proof.Machine

/-- `STATUS`, without the value 3, which is never written (R40, 93_implementation_defined.md I7).
DESIGN CHOICE (log entry 6). Its codes stand in Machine/Flags.lean. -/
inductive Status where
  /-- The block may execute the instruction at `pc`. -/
  | run
  /-- The end of the sequence was reached. -/
  | done
  /-- An execution-time error stopped the run. -/
  | fault
  deriving DecidableEq, Repr

/-- `FCAUSE`, without the value 3, which is never written (R41, 93_implementation_defined.md I7).
DESIGN CHOICE (log entry 6). Its codes stand in Machine/Flags.lean. -/
inductive FaultCause where
  /-- No fault was taken. -/
  | none
  /-- `UnknownOpcode` (R151). -/
  | unknownOpcode
  /-- `AddressOutOfRange` (R152). -/
  | addressOutOfRange
  deriving DecidableEq, Repr

/-- The effect a retire event records (R162). -/
inductive Effect where
  /-- `LC(reg, v)`: the register written and its new value. -/
  | lc (reg : RegIndex) (v : Value)
  /-- `LM(reg, a, v)`: the register written, the cell read, and the value. -/
  | lm (reg : RegIndex) (a : CellIndex) (v : Value)
  /-- `ST(reg, a, v)`: the register read, the cell written, and the value. -/
  | st (reg : RegIndex) (a : CellIndex) (v : Value)
  /-- `NEG(a, old, new)`: the cell and its old and new values. -/
  | neg (a : CellIndex) (old new : Value)
  deriving DecidableEq, Repr

/-- A retire event `(index, mnemonic, effect)` (R162). -/
structure RetireEvent where
  /-- The `pc` of the instruction. -/
  index : Nat
  /-- The instruction's name. -/
  mnemonic : Mnemonic
  /-- What the instruction did. -/
  effect : Effect
  deriving DecidableEq, Repr

/-- The data memory as a list of (cell index, cell) pairs: indices strictly rising and below 128, and no entry that
holds what an unlisted cell reads as (`Memory.wf`, Machine/Ops.lean). The unit is the whole `XLEN`-bit cell, because
the block has no bytes (R50, R55, R59). DESIGN CHOICE (log entry 2). -/
abbrev Memory := List (Nat × Value)

/-- The state tuple of R20, and the program bound at reset (R180). -/
structure State where
  /-- The register file `x[0..31]` (R21). -/
  x : Vector Value Config.nreg
  /-- The data memory `M[0..127]` (R30). -/
  mem : Memory
  /-- The program counter, an index into the program (R33). DESIGN CHOICE (log entry 5): a natural number. -/
  pc : Nat
  /-- `STATUS` (R40). -/
  status : Status
  /-- `FCAUSE` (R41). -/
  fcause : FaultCause
  /-- `FINDEX` (R42). DESIGN CHOICE (log entry 5): a natural number. -/
  findex : Nat
  /-- `FWORD` (R43). -/
  fword : Word
  /-- The retire events so far, the oldest first (R45). DESIGN CHOICE (log entry 18). -/
  trace : List RetireEvent
  /-- The program `P`, bound at reset and never written (R32, R180). DESIGN CHOICE (log entry 3): the model holds this
  input of the run in the state. -/
  program : List Word
  deriving DecidableEq, Repr

/-- Where the model stops. The block's own two faults are not here: taking one is a next state (R155). -/
inductive Fault where
  /-- Raised by the step when STATUS is RUN and `pc` is above PROG_LEN, where the spec gives no step: `pc` never
  exceeds PROG_LEN (R34). Safe: no state that a reset reaches is like that. DESIGN CHOICE (log entry 7). -/
  | fetchOutsideProgram
  deriving DecidableEq, Repr

/-- Instructions the model has no meaning for. -/
inductive Refusal where
  /-- Raised by no arm of `exec`: every instruction of the opcode table has its meaning. It would be safe. -/
  | notModelled (mnemonic : String)
  deriving DecidableEq, Repr

/-- `reset(P)`: every piece of state takes its reset value and `P` is bound (R165, R180). Nothing survives it, so it
takes no earlier state (R182). -/
def State.resetWith (P : List Word) : State where
  x := Vector.replicate Config.nreg 0
  mem := []
  pc := 0
  status := .run
  fcause := .none
  findex := 0
  fword := 0
  trace := []
  program := P

/-- The block right after a reset that supplies no words: `PROG_LEN` may be 0 (R32, R180).
DESIGN CHOICE (log entry 4): which program `State.reset` binds. -/
def State.reset : State := State.resetWith []

end Sys2Proof.Machine
end

