-- ==== Sys2Proof/Machine/Operands.lean ====
section
/-! DEFINITION. The operand forms of the block and its one arithmetic operation: an immediate or a cell index, both
the unsigned 20-bit field used as it is (30_encoding.md R74, 20_memory.md R51), and negation (41_arithmetic.md R140). -/

namespace Sys2Proof.Machine

/-- `zext_XLEN(operand)`, the immediate of `LOAD_CONSTANT` (R74, R120). It is never sign-extended. -/
def immediate (operand : Operand) : Value := operand.setWidth 32

/-- The address-range validator: the cell an operand names, or `none` when it is not below `MEM_SIZE`, compared
unsigned; an operand never wraps to a valid index (R53). -/
def validate (operand : Operand) : Option CellIndex :=
  if h : operand.toNat < Config.memSize then some ⟨operand.toNat, h⟩ else none

/-- `in_range(a)`, the validator's output (R53). -/
def inRange (operand : Operand) : Bool := (validate operand).isSome

/-- `neg(v)`, modulo 2^XLEN, with no flag and no fault, the most negative value too (R140). -/
def negate (v : Value) : Value := -v

end Sys2Proof.Machine
end

