-- ==== Sys2Proof/Machine/Ops.lean ====
section
/-! DEFINITION. The named operations over memory, registers, the trace and the fault record. -/

namespace Sys2Proof.Machine

/-- What a cell that the list does not name holds: the reset value of every cell (R30). -/
def Memory.unlisted : Value := 0

/-- The cell at index `a`. -/
def Memory.read : Memory → Nat → Value
  | [], _ => Memory.unlisted
  | (k, v) :: m, a => if k = a then v else Memory.read m a

/-- The list without the entries for index `a`. -/
def Memory.erase (m : Memory) (a : Nat) : Memory := m.filter (fun e => e.1 != a)

/-- The list with an entry for index `a` before the first higher index. -/
def Memory.place : Memory → Nat → Value → Memory
  | [], a, v => [(a, v)]
  | (k, u) :: m, a, v => if a < k then (a, v) :: (k, u) :: m else (k, u) :: Memory.place m a v

/-- Set the cell at index `a`. It keeps the canonical form: the value of an unlisted cell is not listed. -/
def Memory.write (m : Memory) (a : Nat) (v : Value) : Memory :=
  if v = Memory.unlisted then Memory.erase m a else Memory.place (Memory.erase m a) a v

/-- The canonical form: indices strictly rising and below `MEM_SIZE`, no entry that reads as an unlisted cell. -/
def Memory.wf : Memory → Bool
  | [] => true
  | (k, v) :: m => decide (k < Config.memSize) && v != Memory.unlisted && m.all (fun e => decide (k < e.1)) && Memory.wf m

/-- `x[r]`, read (R10). Every 5-bit index names a register, and none is hardwired (R22, R75). -/
def State.readReg (s : State) (r : RegIndex) : Value := s.x[r.toNat]'r.isLt

/-- `x[r] <- v` (R10). A write to any register takes effect (R22). -/
def State.writeReg (s : State) (r : RegIndex) (v : Value) : State :=
  { s with x := s.x.set r.toNat v r.isLt }

/-- `MemRead(a, 1)` (R10, R54). The read changes nothing (R59). -/
def State.memRead (s : State) (a : CellIndex) : Value := Memory.read s.mem a.val

/-- `MemWrite(a, 1, v)`: cell `a` and no other cell (R10, R54). -/
def State.memWrite (s : State) (a : CellIndex) (v : Value) : State :=
  { s with mem := Memory.write s.mem a.val v }

/-- Complete an instruction: `emit (pc, mnemonic, effect)` and `pc <- pc + 1` (R34, R162). -/
def State.retire (s : State) (m : Mnemonic) (e : Effect) : State :=
  { s with trace := s.trace ++ [⟨s.pc, m, e⟩], pc := s.pc + 1 }

/-- Take a fault: `STATUS <- FAULT`, `FCAUSE <- cause`, `FINDEX <- pc`, `FWORD <- w`, and nothing else (R153, R155).
There is no vector, no handler and no mode to change. There is no return from it: only reset leaves FAULT (R156). -/
def State.takeFault (s : State) (cause : FaultCause) (w : Word) : State :=
  { s with status := .fault, fcause := cause, findex := s.pc, fword := w }

/-- The execute part of a memory instruction: the validator first, then the effect on the cell it names; otherwise
`AddressOutOfRange(pc, w)` and no effect at all (R53, R152, R153). `w` is the word of the instruction, which is the
word the step fetched: DEDUCED (log entry 9). -/
def withCell (i : Instr) (s : State) (effect : CellIndex → State) : Host.Outcome State Fault Refusal :=
  match validate i.operand with
  | some a => .next (effect a)
  | none => .next (s.takeFault .addressOutOfRange (encode i))

/-- The word at `pc`, where the program has one (R167 `w <- P[pc]`). -/
def State.fetch (s : State) : Option Word := s.program[s.pc]?

end Sys2Proof.Machine
end

