-- ==== Sys2Proof/Machine/Arithmetic.lean ====
section
/-! DEFINITION. `UNARY_MINUS` (41_arithmetic.md). -/

namespace Sys2Proof.Machine

/-- `UNARY_MINUS` (R141): `M[operand] <- neg(M[operand])`, the read first and the write second in one step (R186), or
AddressOutOfRange. The register file is neither read nor written, whatever `reg` holds. -/
def execUnaryMinus (reg : RegIndex) (operand : Operand) (s : State) : Host.Outcome State Fault Refusal :=
  withCell (.unaryMinus reg operand) s fun a =>
    (s.memWrite a (negate (s.memRead a))).retire .unaryMinus (.neg a (s.memRead a) (negate (s.memRead a)))

end Sys2Proof.Machine
end

