-- ==== Sys2Proof/Machine/DataMovement.lean ====
section
/-! DEFINITION. `LOAD_CONSTANT`, `LOAD_MEMORY` and `STORE_TO_MEMORY` (40_data_movement.md). -/

namespace Sys2Proof.Machine

/-- `LOAD_CONSTANT` (R120): `x[reg] <- zext_XLEN(operand)`. It never faults. -/
def execLoadConstant (reg : RegIndex) (operand : Operand) (s : State) : Host.Outcome State Fault Refusal :=
  .next ((s.writeReg reg (immediate operand)).retire .loadConstant (.lc reg (immediate operand)))

/-- `LOAD_MEMORY` (R121): `x[reg] <- M[operand]`, or AddressOutOfRange. -/
def execLoadMemory (reg : RegIndex) (operand : Operand) (s : State) : Host.Outcome State Fault Refusal :=
  withCell (.loadMemory reg operand) s fun a =>
    (s.writeReg reg (s.memRead a)).retire .loadMemory (.lm reg a (s.memRead a))

/-- `STORE_TO_MEMORY` (R122): `M[operand] <- x[reg]`, or AddressOutOfRange. -/
def execStoreToMemory (reg : RegIndex) (operand : Operand) (s : State) : Host.Outcome State Fault Refusal :=
  withCell (.storeToMemory reg operand) s fun a =>
    (s.memWrite a (s.readReg reg)).retire .storeToMemory (.st reg a (s.readReg reg))

end Sys2Proof.Machine
end

