-- ==== Sys2Proof/Machine/Dispatch.lean ====
section
/-! DEFINITION. The execute part of the step, one arm per instruction (60_exceptions.md R167). -/

namespace Sys2Proof.Machine

-- exec does not look at STATUS: only the sequencer does (R167). DEDUCED (log entry 17).
def exec (i : Instr) (s : State) : Host.Outcome State Fault Refusal :=
  match i with
  | .loadConstant reg operand => Sys2Proof.Machine.execLoadConstant reg operand s
  | .loadMemory reg operand => Sys2Proof.Machine.execLoadMemory reg operand s
  | .storeToMemory reg operand => Sys2Proof.Machine.execStoreToMemory reg operand s
  | .unaryMinus reg operand => Sys2Proof.Machine.execUnaryMinus reg operand s

end Sys2Proof.Machine
end

