-- ==== Sys2Proof/Machine/Sequencer.lean ====
section
/-! DEFINITION. The sequencer's step (60_exceptions.md R163, R164, R167). -/

namespace Sys2Proof.Machine

/-- `STATUS <- DONE` and nothing else, at the end of the sequence (R163). -/
def State.endOfSequence (s : State) : State := { s with status := .done }

/-- Run one fetched word: decode and dispatch; an opcode outside the table raises `UnknownOpcode(pc, w)`, whatever the
word's other fields hold (R80, R151, R154). -/
def runWord (w : Word) (s : State) : Host.Outcome State Fault Refusal :=
  match decode w with
  | .ok i => exec i s
  | .error _ => .next (s.takeFault .unknownOpcode w)

/-- The step while `STATUS = RUN`: the end of the sequence, or the word at `pc`. Above PROG_LEN the spec gives no step
(R34): the model's own stop, DESIGN CHOICE (log entry 7). -/
def runningStep (s : State) : Host.Outcome State Fault Refusal :=
  if s.pc = s.program.length then .next s.endOfSequence
  else
    match s.fetch with
    | some w => runWord w s
    | none => .fault .fetchOutsideProgram

/-- The step of R167. Once STATUS is DONE or FAULT it changes nothing (R164). -/
def sequencerStep (s : State) : Host.Outcome State Fault Refusal :=
  match s.status with
  | .run => runningStep s
  | .done => .next s
  | .fault => .next s

/-- A program with the word `w` at position `index`: what stands before is kept, and padded with zero words where the program
is shorter. It serves `State.withFetchWord` only (log entry 4). -/
def placeWord (P : List Word) (index : Nat) (w : Word) : List Word :=
  P.take index ++ List.replicate (index - P.length) 0 ++ w :: P.drop (index + 1)

end Sys2Proof.Machine
end

