-- ==== Sys2Proof/Machine/Step.lean ====
section
/-! DEFINITION. The step of the block, and the placing of one word where the next step fetches. -/

namespace Sys2Proof.Machine

/-- One step of the block (60_exceptions.md R167): `sequencerStep`, in Machine/Sequencer.lean. -/
def step (s : State) : Host.Outcome State Fault Refusal := sequencerStep s

/-- `s` with one instruction word at `pc`, and STATUS at RUN so that the very next step runs it. It stands for the host
supplying a program with the reset (R165): no instruction and no step writes the program. DESIGN CHOICE (log entry 4). -/
def State.withFetchWord (s : State) (nbits w : Nat) : State :=
  { s with status := .run, program := placeWord s.program s.pc (BitVec.ofNat 32 (w % 2 ^ nbits)) }

end Sys2Proof.Machine
end

