-- ==== Sys2Proof/Machine/Assembler.lean ====
section
/-! DEFINITION. The Encoder (assembler), which is toolchain and not part of the block (00_scope.md R5,
30_encoding.md R85 to R98). Text is a list of characters. -/

namespace Sys2Proof.Machine

/-- A piece of source text. -/
abbrev Text := List Char

/-- What an assembly error identifies (R88 to R93, 92_eei_decisions.md D24). It is a kind apart from the execution faults
(R96). Message wording is out of scope (R6). -/
inductive AsmError where
  /-- The mnemonic is none of the four (R88). -/
  | unknownInstruction (line : Nat) (mnemonic : Text)
  /-- The line has a known mnemonic and not exactly 3 tokens (R89). -/
  | invalidArgumentCount (line : Nat) (text : Text)
  /-- An operand token is not a decimal integer (R90). -/
  | invalidOperand (line : Nat) (token : Text)
  /-- An operand's value is outside its range (R92, R93). -/
  | outOfRange (line : Nat) (value : Int)
  deriving DecidableEq, Repr

/-- One entry of the assembly log: the 1-based line number, the line's text, and the word in hex (R94). -/
structure AsmLogEntry where
  line : Nat
  text : Text
  hex : Text
  deriving DecidableEq, Repr

/-- What a successful assembly returns: the words and the log, together (R95). -/
structure Assembly where
  words : List Word
  log : List AsmLogEntry
  deriving DecidableEq, Repr

/-- The spelling of a mnemonic in source text (R88). -/
def mnemonicText : Mnemonic → Text
  | .loadConstant => "LOAD_CONSTANT".toList
  | .loadMemory => "LOAD_MEMORY".toList
  | .storeToMemory => "STORE_TO_MEMORY".toList
  | .unaryMinus => "UNARY_MINUS".toList

/-- The mnemonic a token spells, compared case-sensitively (R88). -/
def parseMnemonic (t : Text) : Option Mnemonic :=
  if t = mnemonicText .loadConstant then some .loadConstant
  else if t = mnemonicText .loadMemory then some .loadMemory
  else if t = mnemonicText .storeToMemory then some .storeToMemory
  else if t = mnemonicText .unaryMinus then some .unaryMinus
  else none

/-- Whitespace inside a line: space, tab, carriage return, vertical tab and form feed (R87). -/
def isBlank (c : Char) : Bool :=
  c = ' ' || c = '\t' || c = '\r' || c = '\x0b' || c = '\x0c'

/-- The lines of the input, separated by line feeds (R85, 92_eei_decisions.md D23). -/
def splitLines : Text → List Text
  | [] => [[]]
  | c :: cs =>
    if c = '\n' then [] :: splitLines cs
    else
      match splitLines cs with
      | [] => [[c]]
      | l :: ls => (c :: l) :: ls

/-- Put a character that is not whitespace before the tokens of the text that follows it: into the first of them where
no whitespace stands between, else as a token of its own. -/
def consToken (c : Char) (rest : Text) (ts : List Text) : List Text :=
  match rest, ts with
  | d :: _, t :: ts => if isBlank d then [c] :: t :: ts else (c :: t) :: ts
  | _ :: _, [] => [[c]]
  | [], ts => [c] :: ts

/-- The tokens of a line, split at runs of whitespace (R87). -/
def tokens : Text → List Text
  | [] => []
  | c :: cs => if isBlank c then tokens cs else consToken c cs (tokens cs)

/-- The number that a row of decimal digits stands for, after the digits already read. -/
def digitsValue : Nat → Text → Option Nat
  | n, [] => some n
  | n, c :: cs =>
    if '0'.toNat ≤ c.toNat ∧ c.toNat ≤ '9'.toNat then digitsValue (10 * n + (c.toNat - '0'.toNat)) cs else none

/-- One or more decimal digits (R90). -/
def parseDigits : Text → Option Nat
  | [] => none
  | c :: cs => digitsValue 0 (c :: cs)

/-- An operand token: an optional `-` and one or more digits (R90). Leading zeros and `-0` follow the grammar: DEDUCED
(log entry 15). -/
def parseOperand (t : Text) : Option Int :=
  match t with
  | '-' :: ds => (parseDigits ds).map (fun n => -(n : Int))
  | ds => (parseDigits ds).map (fun n => (n : Int))

/-- The range checks `0 <= v1 < b1` and then `0 <= v2 < b2`; the first that fails names its value, and otherwise the line
gives the word `w` (R91 to R93). -/
def checkRanges (line : Nat) (v1 : Int) (b1 : Nat) (v2 : Int) (b2 : Nat) (w : Word) : Except AsmError Word :=
  if 0 ≤ v1 ∧ v1 < b1 then
    if 0 ≤ v2 ∧ v2 < b2 then .ok w else .error (.outOfRange line v2)
  else .error (.outOfRange line v1)

/-- The word of an instruction line whose two operands are numbers: `LOAD_CONSTANT` takes the value first and the
register second (R92), the other three the register first and the cell index second (R93). -/
def assembleOperands (line : Nat) (m : Mnemonic) (v1 v2 : Int) : Except AsmError Word :=
  match m with
  | .loadConstant =>
    checkRanges line v1 Config.constantBound v2 Config.nreg (pack (opcodeOf m) (BitVec.ofInt 5 v2) (BitVec.ofInt 20 v1))
  | .loadMemory | .storeToMemory | .unaryMinus =>
    checkRanges line v1 Config.nreg v2 Config.addressBound (pack (opcodeOf m) (BitVec.ofInt 5 v1) (BitVec.ofInt 20 v2))

/-- A line with a recognised mnemonic and two operand tokens: the first is parsed, then the second, then the ranges are
checked (R90, R91). -/
def assembleTokens (line : Nat) (m : Mnemonic) (t1 t2 : Text) : Except AsmError Word :=
  match parseOperand t1 with
  | none => .error (.invalidOperand line t1)
  | some v1 =>
    match parseOperand t2 with
    | none => .error (.invalidOperand line t2)
    | some v2 => assembleOperands line m v1 v2

/-- One line: nothing for a blank line or a comment, otherwise a word or the first check that fails (R86 to R91). The
error for a wrong count names the line as it stands in the source: DESIGN CHOICE (log entry 14). -/
def assembleLine (marker : Char) (line : Nat) (text : Text) : Except AsmError (Option Word) :=
  match tokens text with
  | [] => .ok none
  | t0 :: ts =>
    if t0.head? = some marker then .ok none
    else
      match parseMnemonic t0 with
      | none => .error (.unknownInstruction line t0)
      | some m =>
        match ts with
        | [t1, t2] => (assembleTokens line m t1 t2).map some
        | _ => .error (.invalidArgumentCount line text)

/-- One hex digit, in upper case. -/
def hexDigit (d : BitVec 4) : Char :=
  if d.toNat < 10 then Char.ofNat ('0'.toNat + d.toNat) else Char.ofNat ('A'.toNat + (d.toNat - 10))

/-- A word as 8 uppercase, zero-padded hex digits (R94). -/
def hexOfWord (w : Word) : Text :=
  [28, 24, 20, 16, 12, 8, 4, 0].map (fun n => hexDigit (w.extractLsb' n 4))

/-- The lines from number `n` on, in order, each on its own; the first error aborts and nothing else is returned
(R85, R94, R95). -/
def assembleLines (marker : Char) : Nat → List Text → Except AsmError Assembly
  | _, [] => .ok ⟨[], []⟩
  | n, l :: ls =>
    match assembleLine marker n l with
    | .error e => .error e
    | .ok none => assembleLines marker (n + 1) ls
    | .ok (some w) =>
      match assembleLines marker (n + 1) ls with
      | .error e => .error e
      | .ok a => .ok ⟨w :: a.words, ⟨n, l, hexOfWord w⟩ :: a.log⟩

/-- The Encoder. `marker` is the open parameter `COMMENT_MARKER` (R7, R86): DESIGN CHOICE (log entry 13), an argument.
The log keeps each line as it stands in the source (R94): DESIGN CHOICE (log entry 14). -/
def assembleText (marker : Char) (source : Text) : Except AsmError Assembly :=
  assembleLines marker 1 (splitLines source)

/-- The Encoder on a string (R85). -/
def assemble (marker : Char) (source : String) : Except AsmError Assembly :=
  assembleText marker source.toList

end Sys2Proof.Machine
end

