-- ==== Sys2Proof/Machine/Flags.lean ====
section
/-! DEFINITION. The block has no flags, no condition codes and no predicates (10_state.md R37), so no instruction
computes one. This file holds the codes of the status registers and the fields of the fault record
(10_state.md R40 to R43). -/

namespace Sys2Proof.Machine

/-- The 2-bit code of `STATUS` (R40). -/
def Status.code : Status → BitVec 2
  | .run => 0
  | .done => 1
  | .fault => 2

/-- The 2-bit code of `FCAUSE` (R41, R150). -/
def FaultCause.code : FaultCause → BitVec 2
  | .none => 0
  | .unknownOpcode => 1
  | .addressOutOfRange => 2

/-- The opcode a fault record identifies, `FWORD[31:24]` (R43, R151). -/
def State.faultOpcode (s : State) : Opcode := s.fword.extractLsb' 24 8

/-- The address a fault record identifies, `FWORD[19:0]` (R43, R152). -/
def State.faultAddress (s : State) : Operand := s.fword.extractLsb' 0 20

end Sys2Proof.Machine
end

