-- ==== Sys2Proof/Machine/HostInterface.lean ====
section
/-! DEFINITION. What the host can do (60_exceptions.md R165): reset with a program (`State.resetWith`), step, run, and
read without side effect. The register file has no read port (10_state.md R25), and nothing here writes but reset. -/

namespace Sys2Proof.Machine

/-- `reset(P)` from a binary image (R56, R165, R183). A refused image gives no program, and the block does not start
(R57): the answer holds no state. -/
def State.resetImage (bs : List Byte) : Except DecodeError State :=
  match loadImage bs with
  | .ok P => .ok (State.resetWith P)
  | .error e => .error e

/-- `n` applications of the step, up to the first stop of the model. -/
def steps : Nat → State → Host.Outcome State Fault Refusal
  | 0, s => .next s
  | n + 1, s =>
    match step s with
    | .next t => steps n t
    | .fault r => .fault r
    | .refused r => .refused r

/-- `step` repeated until `STATUS` is not RUN, at most `n` times. -/
def runWithin : Nat → State → Host.Outcome State Fault Refusal
  | 0, s => .next s
  | n + 1, s =>
    if s.status = .run then
      match step s with
      | .next t => runWithin n t
      | .fault r => .fault r
      | .refused r => .refused r
    else .next s

/-- `run`: `step` repeated until `STATUS` is not RUN, at most `PROG_LEN + 1` steps (R165). -/
def run (s : State) : Host.Outcome State Fault Refusal := runWithin (s.program.length + 1) s

/-- The host's read of `STATUS` (R44). -/
def State.hostStatus (s : State) : BitVec 2 := s.status.code

/-- The host's read of `FCAUSE` (R44). -/
def State.hostFcause (s : State) : BitVec 2 := s.fcause.code

/-- The host's read of `FINDEX` (R44). -/
def State.hostFindex (s : State) : Nat := s.findex

/-- The host's read of `FWORD` (R44). -/
def State.hostFword (s : State) : Word := s.fword

/-- The host's read of `M[a]`, whatever `STATUS` holds (R66). -/
def State.hostCell (s : State) (a : CellIndex) : Value := s.memRead a

/-- The snapshot: every cell in index order, written or not (R66, R168). -/
def State.snapshot (s : State) : Vector Value Config.memSize := Vector.ofFn s.memRead

/-- The host's read of the trace (R45, R165). -/
def State.hostTrace (s : State) : List RetireEvent := s.trace

end Sys2Proof.Machine
end

