-- ==== Sys2Proof/Safety.lean ====
section
/-! DEFINITION. The terms in which claims about the block are stated: what a run keeps, what its trace says, and which
fields an instruction leaves alone. -/

namespace Sys2Proof.Machine

/-- `STATUS`, `FCAUSE`, `FINDEX` and `FWORD` are as before (R44: nothing writes them but the sequencer and reset). -/
structure SameRecord (s t : State) : Prop where
  status : t.status = s.status
  fcause : t.fcause = s.fcause
  findex : t.findex = s.findex
  fword : t.fword = s.fword

/-- `t` is `s` after taking a fault: the four record registers written, and nothing else changed (R153, R155). -/
structure FaultTaken (cause : FaultCause) (w : Word) (s t : State) : Prop where
  status : t.status = .fault
  fcause : t.fcause = cause
  findex : t.findex = s.pc
  fword : t.fword = w
  regs : ∀ r, t.readReg r = s.readReg r
  cells : ∀ a, t.memRead a = s.memRead a
  pc : t.pc = s.pc
  trace : t.trace = s.trace
  program : t.program = s.program

/-- `t` is `s` after an instruction completed with a given retire event, in every field but the registers and the
memory (R34, R162). -/
structure Retired (m : Mnemonic) (e : Effect) (s t : State) : Prop where
  pc : t.pc = s.pc + 1
  trace : t.trace = s.trace ++ [⟨s.pc, m, e⟩]
  record : SameRecord s t
  program : t.program = s.program

/-- The next step of `s` runs the instruction `i` (R167). -/
structure AboutToRun (s : State) (i : Instr) : Prop where
  running : s.status = .run
  fetched : ∃ w, s.fetch = some w ∧ decode w = .ok i

/-- `pc` is an index into the program or its length (R34), and the memory is in its canonical form. -/
structure StoreInv (s : State) : Prop where
  pc_le : s.pc ≤ s.program.length
  mem_wf : Memory.wf s.mem = true

/-- Registers `x[0]` to `x[15]` hold their reset value (R24). -/
def LowRegistersZero (s : State) : Prop := ∀ r : RegIndex, r.toNat < 16 → s.readReg r = 0

/-- The words whose execution faults, with the cause (R150): an unlisted opcode, or a memory instruction whose operand
the validator rejects. -/
def FaultsWith (w : Word) : FaultCause → Prop
  | .none => False
  | .unknownOpcode => opcodeField w ≠ 13 ∧ opcodeField w ≠ 11 ∧ opcodeField w ≠ 21 ∧ opcodeField w ≠ 31
  | .addressOutOfRange =>
    (opcodeField w = 11 ∨ opcodeField w = 21 ∨ opcodeField w = 31) ∧ 128 ≤ (operandField w).toNat

/-- The status and the fault record belong together (R40 to R43, R163, R168): no record while there is no fault, DONE
only at the end of the sequence, and after a fault the word at `pc` with its index and the reason it faults. -/
def RecordInv (s : State) : Prop :=
  match s.status with
  | .run => s.fcause = .none ∧ s.findex = 0 ∧ s.fword = 0
  | .done => s.fcause = .none ∧ s.findex = 0 ∧ s.fword = 0 ∧ s.pc = s.program.length
  | .fault => s.findex = s.pc ∧ s.program[s.pc]? = some s.fword ∧ FaultsWith s.fword s.fcause

/-- The retire events an instruction can make: its mnemonic, its register, the cell its operand names, and the values it
computes; the values it reads are free here (R162). -/
inductive EventOf : Instr → RetireEvent → Prop where
  | loadConstant (n : Nat) (r : RegIndex) (a : Operand) :
      EventOf (.loadConstant r a) ⟨n, .loadConstant, .lc r (immediate a)⟩
  | loadMemory (n : Nat) (r : RegIndex) (a : Operand) (c : CellIndex) (v : Value) (h : c.val = a.toNat) :
      EventOf (.loadMemory r a) ⟨n, .loadMemory, .lm r c v⟩
  | storeToMemory (n : Nat) (r : RegIndex) (a : Operand) (c : CellIndex) (v : Value) (h : c.val = a.toNat) :
      EventOf (.storeToMemory r a) ⟨n, .storeToMemory, .st r c v⟩
  | unaryMinus (n : Nat) (r : RegIndex) (a : Operand) (c : CellIndex) (old : Value) (h : c.val = a.toNat) :
      EventOf (.unaryMinus r a) ⟨n, .unaryMinus, .neg c old (negate old)⟩

/-- One retire event per completed instruction, in program order: event `n` is that of word `n` (R45, R162). -/
structure TraceInv (s : State) : Prop where
  length : s.trace.length = s.pc
  events : ∀ (n : Nat) (e : RetireEvent), s.trace[n]? = some e →
    e.index = n ∧ ∃ w i, s.program[n]? = some w ∧ decode w = .ok i ∧ EventOf i e

/-- A value in the range that 41_arithmetic.md R142 proves for every run from reset. -/
def InRunRange (v : Value) : Prop := -(2 ^ 20 - 1) ≤ v.toInt ∧ v.toInt ≤ 2 ^ 20 - 1

/-- Every register and every cell is in the range of R142. -/
structure RangeInv (s : State) : Prop where
  regs : ∀ r, InRunRange (s.readReg r)
  cells : ∀ a, InRunRange (s.memRead a)

/-- The cell an event writes, with the value written. -/
def RetireEvent.cellWrite (e : RetireEvent) : Option (CellIndex × Value) :=
  match e.effect with
  | .lc _ _ => none
  | .lm _ _ _ => none
  | .st _ a v => some (a, v)
  | .neg a _ new => some (a, new)

/-- The register an event writes, with the value written. -/
def RetireEvent.regWrite (e : RetireEvent) : Option (RegIndex × Value) :=
  match e.effect with
  | .lc r v => some (r, v)
  | .lm r _ v => some (r, v)
  | .st _ _ _ => none
  | .neg _ _ _ => none

/-- What cell `a` holds after the events, the most recent write to it, where it held `v` before them (R62). -/
def cellAfter (a : CellIndex) : Value → List RetireEvent → Value
  | v, [] => v
  | v, e :: es =>
    cellAfter a (match e.cellWrite with | some (b, u) => if b = a then u else v | none => v) es

/-- What register `r` holds after the events, where it held `v` before them. -/
def regAfter (r : RegIndex) : Value → List RetireEvent → Value
  | v, [] => v
  | v, e :: es =>
    regAfter r (match e.regWrite with | some (q, u) => if q = r then u else v | none => v) es

/-- The trace accounts for the registers and the memory: each holds what the most recent event that wrote it wrote, or
its reset value 0 (R26, R30, R62). -/
structure ReplayInv (s : State) : Prop where
  regs : ∀ r, s.readReg r = regAfter r 0 s.trace
  cells : ∀ a, s.memRead a = cellAfter a 0 s.trace

/-- Two states that may differ in `x[0..15]` only. -/
structure AgreeButLowRegisters (s t : State) : Prop where
  regs : ∀ r : RegIndex, 16 ≤ r.toNat → t.readReg r = s.readReg r
  mem : t.mem = s.mem
  pc : t.pc = s.pc
  record : SameRecord s t
  trace : t.trace = s.trace
  program : t.program = s.program

/-- The events `es` were appended between `s` and `t`, and none of them wrote cell `a`. -/
def NoWriteBetween (a : CellIndex) (s t : State) : Prop :=
  ∃ es, t.trace = s.trace ++ es ∧ ∀ e ∈ es, ∀ v, e.cellWrite ≠ some (a, v)

end Sys2Proof.Machine
end

