-- ==== Sys2Proof/Certificates/Slice0/Obligations.lean ====
section
/-! DEFINITION. The statements for the provers, from the numbered rules of spec/. -/

open Sys2Proof Sys2Proof.Machine

/-! ### Encoding, packing and the image -/

/-- Decoding the word of a well-formed instruction gives the instruction back, every field at every value the encoding
admits. -/
def Obligations.DecodeInvertsEncode : Prop :=
  ∀ i : Instr, i.wellFormed = true → decode (encode i) = .ok i

/-- A word that decodes is the word of the instruction it decodes to, which is well formed: no bit of a word is dropped,
and no two words stand for one instruction. -/
def Obligations.EncodeInvertsDecode : Prop :=
  ∀ (w : Word) (i : Instr), decode w = .ok i → i.wellFormed = true ∧ encode i = w

/-- R72: the three fields of a word, by the shifts and masks of the rule. -/
def Obligations.DecoderFieldsAreShiftsAndMasks : Prop :=
  ∀ w : Word,
    (opcodeField w).toNat = (w.toNat >>> 24) &&& 0xFF ∧
    (regField w).toNat = (w.toNat >>> 20) &&& 0x1F ∧
    (operandField w).toNat = w.toNat &&& 0xFFFFF

/-- R82: the packing rule in natural numbers, and the word of an instruction packed by it. -/
def Obligations.PackIsShiftAndOr : Prop :=
  (∀ (op : Opcode) (r : RegIndex) (a : Operand),
    (pack op r a).toNat = (op.toNat <<< 24) ||| (r.toNat <<< 20) ||| a.toNat) ∧
  (∀ i : Instr, encode i = pack (opcodeOf i.mnemonic) i.reg i.operand)

/-- The spec's own derivation R84: decoding a packed word recovers the opcode and the operand exactly, and the register
as `r | 16`, so exactly only where `r >= 16`. -/
def Obligations.PackedWordRoundTrip : Prop :=
  ∀ op r a : Nat, op ∈ [11, 13, 21, 31] → r < 32 → a < 2 ^ 20 →
    let w : Word := BitVec.ofNat 32 ((op <<< 24) ||| (r <<< 20) ||| a)
    (opcodeField w).toNat = op ∧ (regField w).toNat = r ||| 16 ∧ (operandField w).toNat = a ∧
      ((regField w).toNat = r ↔ 16 ≤ r)

/-- The spec's own derivation R83: source registers `r` and `r + 16` give one word, and its register is `16 + r`. -/
def Obligations.LowRegisterAliasesHigh : Prop :=
  ∀ (m : Mnemonic) (r : Nat) (a : Operand), r < 16 →
    pack (opcodeOf m) (BitVec.ofNat 5 r) a = pack (opcodeOf m) (BitVec.ofNat 5 (r + 16)) a ∧
    (regField (pack (opcodeOf m) (BitVec.ofNat 5 r) a)).toNat = 16 + r

/-- R77: the four opcodes of the table select their instruction with the word's fields, and every other opcode is
illegal. -/
def Obligations.DispatchComparesWholeOpcode : Prop :=
  ∀ w : Word,
    decode w =
      if (opcodeField w).toNat = 13 then .ok (.loadConstant (regField w) (operandField w))
      else if (opcodeField w).toNat = 11 then .ok (.loadMemory (regField w) (operandField w))
      else if (opcodeField w).toNat = 21 then .ok (.storeToMemory (regField w) (operandField w))
      else if (opcodeField w).toNat = 31 then .ok (.unaryMinus (regField w) (operandField w))
      else .error (.unknownOpcode (opcodeField w))

/-- The spec's own derivation R79: the register of a recognised word is `16 + w[23:20]`, in 16..31. -/
def Obligations.RecognisedRegisterIsHigh : Prop :=
  ∀ (w : Word) (i : Instr), decode w = .ok i →
    w.getLsbD 24 = true ∧ i.reg.toNat = 16 + (w.extractLsb' 20 4).toNat

/-- Sanity: words written out from the opcode table's patterns decode to the instructions they stand for. -/
def Obligations.TableWordsDecode : Prop :=
  decode 0b00001101_0101_0000_0000_0000_0000_1010#32 = .ok (.loadConstant 21 10) ∧
  decode 0b00001011_0001_0000_0000_0000_0110_0100#32 = .ok (.loadMemory 17 100) ∧
  decode 0b00010101_0000_0000_0000_0000_0111_1111#32 = .ok (.storeToMemory 16 127) ∧
  decode 0b00011111_1111_1111_1111_1111_1111_1111#32 = .ok (.unaryMinus 31 1048575) ∧
  decode 0b10001101_0000_0000_0000_0000_0000_0000#32 = .error (.unknownOpcode 141)

/-- Loading the image of a program gives the program back, `PROG_LEN` words of 4 bytes each. What "big-endian" means is
PRESUMED (log entry 12). -/
def Obligations.ImageRoundTrip : Prop :=
  ∀ P : List Word, loadImage (imageOf P) = .ok P ∧ (imageOf P).length = 4 * P.length

/-- Word `i` of a loaded image has the image's bytes `4i` to `4i+3`, the first the most significant. What "big-endian"
means is PRESUMED (log entry 12). -/
def Obligations.ImageWordsAreBigEndian : Prop :=
  ∀ (bs : List Byte) (P : List Word), loadImage bs = .ok P →
    bs.length = 4 * P.length ∧
    ∀ (i : Nat) (w : Word), P[i]? = some w →
      ∃ b0 b1 b2 b3 : Byte, bs[4 * i]? = some b0 ∧ bs[4 * i + 1]? = some b1 ∧ bs[4 * i + 2]? = some b2 ∧
        bs[4 * i + 3]? = some b3 ∧
        w.toNat = (b0.toNat <<< 24) ||| (b1.toNat <<< 16) ||| (b2.toNat <<< 8) ||| b3.toNat

/-- R57: an image is refused exactly when its length is not a multiple of 4; then it gives no program and no state. -/
def Obligations.RaggedImageRefused : Prop :=
  ∀ bs : List Byte,
    (bs.length % 4 ≠ 0 →
      loadImage bs = .error (.imageLength bs.length) ∧ State.resetImage bs = .error (.imageLength bs.length)) ∧
    (bs.length % 4 = 0 → ∃ P, loadImage bs = .ok P ∧ State.resetImage bs = .ok (State.resetWith P))

/-! ### Reset, the validator and negation -/

/-- R180: what reset puts into every piece of state. -/
def Obligations.ResetValues : Prop :=
  ∀ P : List Word,
    let s := State.resetWith P
    (∀ r, s.readReg r = 0) ∧ (∀ a, s.memRead a = 0) ∧ s.pc = 0 ∧ s.hostStatus = 0 ∧ s.hostFcause = 0 ∧
      s.hostFindex = 0 ∧ s.hostFword = 0 ∧ s.trace = [] ∧ s.program = P

/-- R53: the validator accepts exactly the operands below 128, which are those with bits [19:7] zero; the cell it names
has the operand as its index; and a memory instruction with any other operand faults. -/
def Obligations.ValidatorAcceptsBelow128 : Prop :=
  ∀ a : Operand,
    (inRange a = true ↔ a.toNat < 128) ∧ (inRange a = true ↔ a.extractLsb' 7 13 = 0) ∧
    (∀ c, validate a = some c → c.val = a.toNat) ∧ (inRange a = true ↔ ∃ c, validate a = some c) ∧
    (∀ (i : Instr) (s : State), i.operand = a → i.mnemonic ≠ .loadConstant → inRange a = false →
      ∃ t, exec i s = .next t ∧ t.status = .fault ∧ t.fcause = .addressOutOfRange)

/-- R54: a write sets its cell and changes no other. -/
def Obligations.CellWriteChangesOneCell : Prop :=
  ∀ (s : State) (a : CellIndex) (v : Value),
    (s.memWrite a v).memRead a = v ∧ ∀ b, b ≠ a → (s.memWrite a v).memRead b = s.memRead b

/-- R22: a write to any of the 32 registers takes effect, and changes no other. -/
def Obligations.EveryRegisterHoldsItsWrite : Prop :=
  ∀ (s : State) (r : RegIndex) (v : Value),
    (s.writeReg r v).readReg r = v ∧ ∀ q, q ≠ r → (s.writeReg r v).readReg q = s.readReg q

/-- Negation as 41_arithmetic.md R140 computes it, at the width `XLEN = 32` (DESIGN CHOICE, log entry 1): modulo 2^32,
0 to 0, and the most negative value to itself. -/
def Obligations.NegationIsModular : Prop :=
  (∀ v : Value, (negate v).toNat = (2 ^ 32 - v.toNat) % 2 ^ 32) ∧ negate 0 = 0 ∧
    negate (BitVec.intMin 32) = BitVec.intMin 32

/-! ### What each instruction does -/

/-- R120: every word with opcode 13 is `LOAD_CONSTANT`, and it always completes: `x[reg]` holds the operand,
zero-extended, with its event in the trace and `pc` one up; no other register, no cell, no status register and no word of
the program changes. -/
def Obligations.LoadConstantResult : Prop :=
  (∀ w : Word, opcodeField w = 13 → decode w = .ok (.loadConstant (regField w) (operandField w))) ∧
  ∀ (reg : RegIndex) (operand : Operand) (s : State),
    ∃ t, exec (.loadConstant reg operand) s = .next t ∧
      (t.readReg reg).toNat = operand.toNat ∧
      (∀ q, q ≠ reg → t.readReg q = s.readReg q) ∧ (∀ a, t.memRead a = s.memRead a) ∧
      Retired .loadConstant (.lc reg (t.readReg reg)) s t

/-- R121: every word with opcode 11 is `LOAD_MEMORY`. With an operand the validator accepts it completes: `x[reg]` holds
the cell, no other register and no cell changes. Otherwise it takes AddressOutOfRange and changes nothing else. -/
def Obligations.LoadMemoryResult : Prop :=
  (∀ w : Word, opcodeField w = 11 → decode w = .ok (.loadMemory (regField w) (operandField w))) ∧
  ∀ (reg : RegIndex) (operand : Operand) (s : State),
    (∀ a, validate operand = some a →
      ∃ t, exec (.loadMemory reg operand) s = .next t ∧
        t.readReg reg = s.memRead a ∧
        (∀ q, q ≠ reg → t.readReg q = s.readReg q) ∧ (∀ b, t.memRead b = s.memRead b) ∧
        Retired .loadMemory (.lm reg a (s.memRead a)) s t) ∧
    (validate operand = none →
      ∃ t, exec (.loadMemory reg operand) s = .next t ∧
        FaultTaken .addressOutOfRange (encode (.loadMemory reg operand)) s t)

/-- R122: every word with opcode 21 is `STORE_TO_MEMORY`. With an operand the validator accepts it completes: the cell the
validator names holds `x[reg]`, no other cell and no register changes. Otherwise it takes AddressOutOfRange and changes
nothing else. -/
def Obligations.StoreToMemoryResult : Prop :=
  (∀ w : Word, opcodeField w = 21 → decode w = .ok (.storeToMemory (regField w) (operandField w))) ∧
  ∀ (reg : RegIndex) (operand : Operand) (s : State),
    (∀ a, validate operand = some a →
      ∃ t, exec (.storeToMemory reg operand) s = .next t ∧
        t.memRead a = s.readReg reg ∧
        (∀ b, b ≠ a → t.memRead b = s.memRead b) ∧ (∀ q, t.readReg q = s.readReg q) ∧
        Retired .storeToMemory (.st reg a (s.readReg reg)) s t) ∧
    (validate operand = none →
      ∃ t, exec (.storeToMemory reg operand) s = .next t ∧
        FaultTaken .addressOutOfRange (encode (.storeToMemory reg operand)) s t)

/-- R141: every word with opcode 31 is `UNARY_MINUS`. With an operand the validator accepts it completes: the cell the
validator names holds its own negation (`NegationIsModular` says what that is), no other cell and no register changes,
whatever `reg` holds. Otherwise it takes AddressOutOfRange and changes nothing else. -/
def Obligations.UnaryMinusResult : Prop :=
  (∀ w : Word, opcodeField w = 31 → decode w = .ok (.unaryMinus (regField w) (operandField w))) ∧
  ∀ (reg : RegIndex) (operand : Operand) (s : State),
    (∀ a, validate operand = some a →
      ∃ t, exec (.unaryMinus reg operand) s = .next t ∧
        t.memRead a = negate (s.memRead a) ∧
        (∀ b, b ≠ a → t.memRead b = s.memRead b) ∧ (∀ q, t.readReg q = s.readReg q) ∧
        Retired .unaryMinus (.neg a (s.memRead a) (t.memRead a)) s t) ∧
    (validate operand = none →
      ∃ t, exec (.unaryMinus reg operand) s = .next t ∧
        FaultTaken .addressOutOfRange (encode (.unaryMinus reg operand)) s t)

/-- Where the validator accepts the operand, `UNARY_MINUS` does the same whatever its register field holds. -/
def Obligations.UnaryMinusIgnoresRegister : Prop :=
  ∀ (r q : RegIndex) (operand : Operand) (a : CellIndex) (s : State), validate operand = some a →
    exec (.unaryMinus r operand) s = exec (.unaryMinus q operand) s

/-! ### The step -/

/-- R167: while STATUS is RUN, a word at `pc` that decodes is run: the step is `exec` of the instruction, which is well
formed, at that state, with nothing around it. -/
def Obligations.StepRunsDecodedInstruction : Prop :=
  ∀ (s : State) (w : Word) (i : Instr), s.status = .run → s.program[s.pc]? = some w → decode w = .ok i →
    i.wellFormed = true ∧ Sys2Proof.Machine.step s = exec i s

/-- R163: at the end of the sequence the step sets STATUS to DONE and changes nothing else. -/
def Obligations.EndOfSequenceSetsDone : Prop :=
  ∀ s : State, s.status = .run → s.pc = s.program.length →
    ∃ t, Sys2Proof.Machine.step s = .next t ∧ t.status = .done ∧
      (∀ r, t.readReg r = s.readReg r) ∧ (∀ a, t.memRead a = s.memRead a) ∧ t.pc = s.pc ∧
      t.fcause = s.fcause ∧ t.findex = s.findex ∧ t.fword = s.fword ∧ t.trace = s.trace ∧ t.program = s.program

/-- R164: once STATUS is DONE or FAULT, any number of steps, and a run, change nothing. -/
def Obligations.HaltIsFinal : Prop :=
  ∀ s : State, s.status ≠ .run → (∀ n, steps n s = .next s) ∧ run s = .next s

/-- R151: a word at `pc` whose opcode is none of the four takes UnknownOpcode, whatever its other bits are, and records
cause 1, its index and itself. -/
def Obligations.UnknownOpcodeTaken : Prop :=
  ∀ (s : State) (w : Word), s.status = .run → s.program[s.pc]? = some w →
    (opcodeField w).toNat ∉ [11, 13, 21, 31] →
    ∃ t, Sys2Proof.Machine.step s = .next t ∧ FaultTaken .unknownOpcode w s t ∧
      t.hostFcause = 1 ∧ t.faultOpcode = opcodeField w

/-- R152: a memory instruction at `pc` with an operand of 128 or more takes AddressOutOfRange and records cause 2, its
index and its word as fetched; `LOAD_CONSTANT` never does. -/
def Obligations.AddressOutOfRangeTaken : Prop :=
  (∀ (s : State) (w : Word), s.status = .run → s.program[s.pc]? = some w →
    (opcodeField w).toNat ∈ [11, 21, 31] → 128 ≤ (operandField w).toNat →
    ∃ t, Sys2Proof.Machine.step s = .next t ∧ FaultTaken .addressOutOfRange w s t ∧
      t.hostFcause = 2 ∧ t.faultAddress = operandField w) ∧
  (∀ (s : State) (w : Word), s.status = .run → s.program[s.pc]? = some w → (opcodeField w).toNat = 13 →
    ∃ t, Sys2Proof.Machine.step s = .next t ∧ SameRecord s t)

/-- R153 and R155: a step that enters FAULT takes a fault on the word it fetched: it writes the four record registers and
nothing else, and the word is one that faults with the recorded cause. -/
def Obligations.FaultsArePrecise : Prop :=
  ∀ s t : State, Sys2Proof.Machine.step s = .next t → s.status ≠ .fault → t.status = .fault →
    FaultTaken t.fcause t.fword s t ∧ s.program[s.pc]? = some t.fword ∧ FaultsWith t.fword t.fcause

/-- R34: a step either completes an instruction, with `pc` one up and one event more, or leaves `pc` and the trace as
they are; a step that enters FAULT or DONE is of the second kind; and `pc` does not come to exceed PROG_LEN. -/
def Obligations.StepAdvancesOrStays : Prop :=
  ∀ s t : State, Sys2Proof.Machine.step s = .next t →
    ((t.pc = s.pc + 1 ∧ (∃ m e, t.trace = s.trace ++ [⟨s.pc, m, e⟩]) ∧ SameRecord s t ∧ s.status = .run) ∨
      (t.pc = s.pc ∧ t.trace = s.trace ∧ (∀ r, t.readReg r = s.readReg r) ∧ (∀ a, t.memRead a = s.memRead a) ∧
        t.status ≠ .run)) ∧
    (s.pc ≤ s.program.length → t.pc ≤ t.program.length)

/-- From a state with `pc` at most PROG_LEN, no number of steps ends in a fault or a refusal of the model. Above PROG_LEN
the model stops by its own choice (DESIGN CHOICE, log entry 7). -/
def Obligations.ModelNeverStopsWithinProgram : Prop :=
  ∀ (s : State), s.pc ≤ s.program.length → ∀ n, ∃ t, steps n s = .next t ∧ t.pc ≤ t.program.length

/-- Above PROG_LEN, where the spec gives no step and no run from reset comes, the running model stops: DESIGN CHOICE
(log entry 7). -/
def Obligations.StepAboveProgramStops : Prop :=
  ∀ s : State, s.status = .run → s.program.length < s.pc →
    Sys2Proof.Machine.step s = .fault .fetchOutsideProgram ∧ run s = .fault .fetchOutsideProgram

/-- R32: no number of steps changes the program. -/
def Obligations.ProgramIsImmutable : Prop :=
  ∀ (n : Nat) (s t : State), steps n s = .next t → t.program = s.program

/-- The word that `withFetchWord` places is the one the very next step runs (log entry 4), and it changes no register,
cell, `pc` or trace. -/
def Obligations.PlacedWordRunsNext : Prop :=
  ∀ (s : State) (w : Nat) (i : Instr), decodeTableWord 32 w = some i →
    Sys2Proof.Machine.step (s.withFetchWord 32 w) = exec i (s.withFetchWord 32 w) ∧
    (s.withFetchWord 32 w).x = s.x ∧ (s.withFetchWord 32 w).mem = s.mem ∧ (s.withFetchWord 32 w).pc = s.pc ∧
    (s.withFetchWord 32 w).trace = s.trace

/-! ### Invariants that every step keeps -/

/-- Reset leaves `pc` within the program and the memory in its canonical form. The canonical form is the model's own
(DESIGN CHOICE, log entry 2). -/
def Obligations.ResetMeetsStoreInv : Prop := ∀ P, StoreInv (State.resetWith P)

/-- Every step keeps `pc` at most PROG_LEN (R34) and the memory in its canonical form (the model's own: DESIGN CHOICE, log
entry 2). -/
def Obligations.StepKeepsStoreInv : Prop :=
  ∀ s t : State, StoreInv s → Sys2Proof.Machine.step s = .next t → StoreInv t

/-- Reset meets the invariant of the status and the fault record. -/
def Obligations.ResetMeetsRecordInv : Prop := ∀ P, RecordInv (State.resetWith P)

/-- Every step keeps the status and the fault record together: FAULT with the index, word and cause of the word at `pc`,
DONE only at the end, no record otherwise. -/
def Obligations.StepKeepsRecordInv : Prop :=
  ∀ s t : State, RecordInv s → Sys2Proof.Machine.step s = .next t → RecordInv t

/-- Reset meets the invariant of the trace. -/
def Obligations.ResetMeetsTraceInv : Prop := ∀ P, TraceInv (State.resetWith P)

/-- Every step keeps the trace one event per completed instruction, each with its index, its mnemonic and the fields of
the program's word (R45, R162). -/
def Obligations.StepKeepsTraceInv : Prop :=
  ∀ s t : State, TraceInv s → Sys2Proof.Machine.step s = .next t → TraceInv t

/-- Reset meets the replay invariant. -/
def Obligations.ResetMeetsReplayInv : Prop := ∀ P, ReplayInv (State.resetWith P)

/-- Every step keeps each cell at the value of the most recent write the trace records, or 0 (R62), and each register
likewise. -/
def Obligations.StepKeepsReplayInv : Prop :=
  ∀ s t : State, ReplayInv s → Sys2Proof.Machine.step s = .next t → ReplayInv t

/-- The induction step of the spec's own derivation R142: every step keeps every register and every cell within
±(2^20 - 1). -/
def Obligations.StepKeepsRangeInv : Prop :=
  ∀ s t : State, RangeInv s → Sys2Proof.Machine.step s = .next t → RangeInv t

/-- The spec's own derivation R142: after any number of steps from reset, with any program, every value is within
±(2^20 - 1), and negating it is exact, so no wrap is ever reached. -/
def Obligations.NegationExactFromReset : Prop :=
  ∀ (P : List Word) (n : Nat) (s : State), steps n (State.resetWith P) = .next s →
    RangeInv s ∧ ∀ a, (negate (s.memRead a)).toInt = -(s.memRead a).toInt

/-- The spec's own derivation R24, one half: no step from any state writes `x[0]` to `x[15]`. -/
def Obligations.LowRegistersNeverWritten : Prop :=
  ∀ s t : State, Sys2Proof.Machine.step s = .next t →
    (∀ r : RegIndex, r.toNat < 16 → t.readReg r = s.readReg r) ∧ (LowRegistersZero s → LowRegistersZero t)

/-- The spec's own derivation R24, the other half: no step reads `x[0]` to `x[15]`: two states that differ only there
step alike. -/
def Obligations.LowRegistersNeverRead : Prop :=
  ∀ s t s' : State, AgreeButLowRegisters s t → Sys2Proof.Machine.step s = .next s' →
    ∃ t', Sys2Proof.Machine.step t = .next t' ∧ AgreeButLowRegisters s' t'

/-! ### Runs -/

/-- R189: a run from any state with `pc` at most PROG_LEN, so after every reset, reaches DONE or FAULT within PROG_LEN + 1
steps. -/
def Obligations.EveryRunEnds : Prop :=
  ∀ s : State, s.pc ≤ s.program.length →
    ∃ t, run s = .next t ∧ t.status ≠ .run ∧ ∃ n, n ≤ s.program.length + 1 ∧ steps n s = .next t

/-- R168: a run from reset is DONE when every word of the program executed without a fault, and FAULT when the word at
FINDEX faulted, the words before it executed, and it and every later word did not; the snapshot after it is every
cell. -/
def Obligations.RunOutcome : Prop :=
  ∀ P : List Word, ∃ t, run (State.resetWith P) = .next t ∧ (∀ a, t.snapshot[a.val]? = some (t.memRead a)) ∧
    ((t.status = .done ∧ t.pc = P.length ∧ t.trace.length = P.length ∧
        (∀ w ∈ P, ∀ c, ¬ FaultsWith w c)) ∨
      (t.status = .fault ∧ t.pc = t.findex ∧ t.trace.length = t.findex ∧ P[t.findex]? = some t.fword ∧
        FaultsWith t.fword t.fcause ∧
        (∀ (n : Nat) (w : Word), n < t.findex → P[n]? = some w → ∀ c, ¬ FaultsWith w c)))

/-- The spec's own derivation R123: after a store to a cell, any number of steps with no write to that cell, and a load
from it, the loaded register holds the value stored. -/
def Obligations.LoadReturnsLastStore : Prop :=
  ∀ (s0 s1 s2 s3 : State) (r q : RegIndex) (operand : Operand) (a : CellIndex) (n : Nat),
    validate operand = some a →
    AboutToRun s0 (.storeToMemory r operand) → Sys2Proof.Machine.step s0 = .next s1 →
    steps n s1 = .next s2 → NoWriteBetween a s1 s2 →
    AboutToRun s2 (.loadMemory q operand) → Sys2Proof.Machine.step s2 = .next s3 →
    s3.readReg q = s0.readReg r

/-- The spec's own derivation R143: two negations of a cell with no other write to it between them restore its value,
whatever it is. -/
def Obligations.DoubleNegationRestoresCell : Prop :=
  ∀ (s0 s1 s2 s3 : State) (r q : RegIndex) (operand : Operand) (a : CellIndex) (n : Nat),
    validate operand = some a →
    AboutToRun s0 (.unaryMinus r operand) → Sys2Proof.Machine.step s0 = .next s1 →
    steps n s1 = .next s2 → NoWriteBetween a s1 s2 →
    AboutToRun s2 (.unaryMinus q operand) → Sys2Proof.Machine.step s2 = .next s3 →
    s3.memRead a = s0.memRead a

/-! ### What the host reads -/

/-- R66: the snapshot holds every cell at its index, written or not, whatever STATUS holds. -/
def Obligations.SnapshotHoldsEveryCell : Prop :=
  ∀ (s : State) (a : CellIndex), s.snapshot[a.val]? = some (s.memRead a) ∧ s.hostCell a = s.memRead a

/-- The codes the host reads (R40, R41): RUN, DONE and FAULT are 0, 1 and 2, and so are the three causes; the value 3 is
never read. That no state holds 3 is the model's choice (DESIGN CHOICE, log entry 6). -/
def Obligations.StatusCodes : Prop :=
  (∀ s : State, (s.hostStatus = 0 ↔ s.status = .run) ∧ (s.hostStatus = 1 ↔ s.status = .done) ∧
    (s.hostStatus = 2 ↔ s.status = .fault) ∧ s.hostStatus ≠ 3) ∧
  (∀ s : State, (s.hostFcause = 0 ↔ s.fcause = .none) ∧ (s.hostFcause = 1 ↔ s.fcause = .unknownOpcode) ∧
    (s.hostFcause = 2 ↔ s.fcause = .addressOutOfRange) ∧ s.hostFcause ≠ 3)

/-! ### The assembler -/

/-- R92: `LOAD_CONSTANT value reg` assembles exactly when the value is below 65536 and the register below 32, to the word
`(13 << 24) | (reg << 20) | value`; otherwise the error names the violating value, the first operand's before the
second's. -/
def Obligations.LoadConstantLineAssembles : Prop :=
  ∀ (line : Nat) (value reg : Int),
    (∀ v r : Nat, value = v → reg = r → v < 65536 → r < 32 →
      assembleOperands line .loadConstant value reg =
        .ok (BitVec.ofNat 32 ((13 <<< 24) ||| (r <<< 20) ||| v))) ∧
    (¬ (0 ≤ value ∧ value < 65536) →
      assembleOperands line .loadConstant value reg = .error (.outOfRange line value)) ∧
    ((0 ≤ value ∧ value < 65536) → ¬ (0 ≤ reg ∧ reg < 32) →
      assembleOperands line .loadConstant value reg = .error (.outOfRange line reg))

/-- R93: the three memory mnemonics take the register first and the cell index second, bounded by 32 and 2^20, and
assemble to `(op << 24) | (reg << 20) | address`; an address from 128 up assembles too. -/
def Obligations.MemoryLineAssembles : Prop :=
  ∀ (line op : Nat) (m : Mnemonic) (reg address : Int),
    (m, op) ∈ [(.loadMemory, 11), (.storeToMemory, 21), (.unaryMinus, 31)] →
    (∀ r a : Nat, reg = r → address = a → r < 32 → a < 1048576 →
      assembleOperands line m reg address = .ok (BitVec.ofNat 32 ((op <<< 24) ||| (r <<< 20) ||| a))) ∧
    (¬ (0 ≤ reg ∧ reg < 32) → assembleOperands line m reg address = .error (.outOfRange line reg)) ∧
    ((0 ≤ reg ∧ reg < 32) → ¬ (0 ≤ address ∧ address < 1048576) →
      assembleOperands line m reg address = .error (.outOfRange line address))

/-- R88 to R91: the checks of a line that is neither blank nor a comment, in their order: mnemonic, token count, first
operand, second operand, and then the ranges. -/
def Obligations.LineChecksRunInOrder : Prop :=
  ∀ (marker : Char) (line : Nat) (text t0 : Text) (ts : List Text),
    tokens text = t0 :: ts → t0.head? ≠ some marker →
    (parseMnemonic t0 = none → assembleLine marker line text = .error (.unknownInstruction line t0)) ∧
    (∀ m, parseMnemonic t0 = some m →
      (ts.length ≠ 2 → assembleLine marker line text = .error (.invalidArgumentCount line text)) ∧
      (∀ t1 t2, ts = [t1, t2] →
        (parseOperand t1 = none → assembleLine marker line text = .error (.invalidOperand line t1)) ∧
        (∀ v1, parseOperand t1 = some v1 →
          (parseOperand t2 = none → assembleLine marker line text = .error (.invalidOperand line t2)) ∧
          (∀ v2, parseOperand t2 = some v2 →
            assembleLine marker line text = (assembleOperands line m v1 v2).map some))))

/-- R86: a line of whitespace only, and a line whose first character that is not whitespace is the comment marker, give
no word and no error, for every marker. -/
def Obligations.BlankAndCommentLinesAreSkipped : Prop :=
  ∀ (marker : Char) (line : Nat) (text : Text),
    ((∀ c ∈ text, isBlank c = true) → assembleLine marker line text = .ok none) ∧
    (∀ before after : Text, text = before ++ marker :: after → (∀ c ∈ before, isBlank c = true) →
      isBlank marker = false → assembleLine marker line text = .ok none)

/-- R95: the first line that fails ends the assembly with its error, whatever stands after it, and nothing else is
returned. -/
def Obligations.AssemblyStopsAtFirstError : Prop :=
  ∀ (marker : Char) (n : Nat) (before after : List Text) (l : Text) (a : Assembly) (e : AsmError),
    assembleLines marker n before = .ok a → assembleLine marker (n + before.length) l = .error e →
    assembleLines marker n (before ++ l :: after) = .error e

/-- A source text that assembles gives words that all decode to well-formed instructions, so none of them raises
UnknownOpcode, with one log entry per word that shows it in hex (`HexDigitsOfWord` says how), at its 1-based line. That
an entry holds the line exactly as it stands in the source is the model's choice (DESIGN CHOICE, log entry 14). -/
def Obligations.AssembledWordsAreRecognised : Prop :=
  ∀ (marker : Char) (source : Text) (a : Assembly), assembleText marker source = .ok a →
    (∀ w ∈ a.words, ∃ i, decode w = .ok i ∧ i.wellFormed = true) ∧
    a.log.map AsmLogEntry.hex = a.words.map hexOfWord ∧
    (∀ e ∈ a.log, 1 ≤ e.line ∧ (splitLines source)[e.line - 1]? = some e.text)

/-- The hex text of a word in the assembly log: 8 uppercase, zero-padded hex digits, the most significant first
(30_encoding.md R94). -/
def Obligations.HexDigitsOfWord : Prop :=
  ∀ w : Word, (hexOfWord w).length = 8 ∧
    ∀ n : Nat, n < 8 →
      (hexOfWord w)[n]? = "0123456789ABCDEF".toList[(w.toNat >>> (4 * (7 - n))) % 16]?
end

