-- ==== Sys2Proof/Laws/Assembler.lean ====
section
/-! SUPPORT. What the assembler's shared operations can do. -/

namespace Sys2Proof.Machine

theorem tokens_blank (c : Char) (cs : Text) (h : isBlank c = true) : tokens (c :: cs) = tokens cs := by
  rw [tokens, if_pos h]

/-- Leading whitespace gives no token. -/
theorem tokens_append_blank (before cs : Text) (h : ∀ c ∈ before, isBlank c = true) :
    tokens (before ++ cs) = tokens cs := by
  induction before with
  | nil => rfl
  | cons c before ih =>
    rw [List.cons_append, tokens_blank _ _ (h c (by simp))]
    exact ih fun d hd => h d (by simp [hd])

/-- A character that is not whitespace begins the first token of the text it begins. -/
theorem tokens_nonblank (c : Char) (cs : Text) (h : isBlank c = false) :
    ∃ t ts, tokens (c :: cs) = (c :: t) :: ts := by
  rw [tokens, h]
  simp only [Bool.false_eq_true, if_false]
  unfold consToken
  split
  · split <;> simp
  · simp
  · simp

/-- The range checks succeed exactly where both values are in range, and then give the word. -/
theorem checkRanges_eq_ok {line b1 b2 : Nat} {v1 v2 : Int} {w u : Word} :
    checkRanges line v1 b1 v2 b2 w = .ok u ↔ (0 ≤ v1 ∧ v1 < b1) ∧ (0 ≤ v2 ∧ v2 < b2) ∧ w = u := by
  unfold checkRanges
  split
  · split <;> simp_all
  · simp_all

end Sys2Proof.Machine
end

