-- ==== Sys2Proof/Laws/Encoding.lean ====
section
/-! SUPPORT. The small lemmas of the packing rule, the decoder's fields and the dispatcher. -/

namespace Sys2Proof

@[simp] theorem dispatch_opcodeOf (m : Mnemonic) : dispatch (opcodeOf m) = some m := by
  cases m <;> decide

/-- The dispatcher selects a mnemonic only at that mnemonic's opcode. -/
theorem dispatch_eq_some {op : Opcode} {m : Mnemonic} (h : dispatch op = some m) : op = opcodeOf m := by
  unfold dispatch at h
  repeat' split at h
  all_goals first
    | (obtain rfl := Option.some.inj h; assumption)
    | cases h

/-- The dispatcher rejects exactly the opcodes outside the table. -/
theorem dispatch_eq_none (op : Opcode) : dispatch op = none ↔ ∀ m, op ≠ opcodeOf m := by
  constructor
  · rintro h m rfl
    simp at h
  · intro h
    cases hd : dispatch op with
    | none => rfl
    | some m => exact absurd (dispatch_eq_some hd) (h m)

/-- What the decoder answers, where it answers an instruction. -/
theorem decode_eq_ok {w : Word} {i : Instr} :
    decode w = .ok i ↔
      opcodeField w = opcodeOf i.mnemonic ∧ regField w = i.reg ∧ operandField w = i.operand := by
  unfold decode
  constructor
  · intro h
    split at h
    case h_1 m hm =>
      obtain rfl := Except.ok.inj h
      cases m <;> exact ⟨dispatch_eq_some hm, rfl, rfl⟩
    case h_2 => cases h
  · rintro ⟨ho, hr, ha⟩
    rw [ho, dispatch_opcodeOf, hr, ha]
    cases i <;> rfl

/-- What the decoder answers, where it rejects a word. -/
theorem decode_eq_error {w : Word} {e : DecodeError} :
    decode w = .error e ↔ e = .unknownOpcode (opcodeField w) ∧ ∀ m, opcodeField w ≠ opcodeOf m := by
  unfold decode
  rw [← dispatch_eq_none]
  cases hd : dispatch (opcodeField w) <;> simp [eq_comm]

/-- Bit `n` of a packed word (R82). -/
theorem pack_getLsbD (op : Opcode) (r : RegIndex) (a : Operand) (n : Nat) (hn : n < 32) :
    (pack op r a).getLsbD n = ((decide (24 ≤ n) && op.getLsbD (n - 24)) ||
      (decide (20 ≤ n) && r.getLsbD (n - 20)) || a.getLsbD n) := by
  unfold pack
  simp only [BitVec.getLsbD_or, BitVec.getLsbD_shiftLeft, BitVec.getLsbD_setWidth, hn, decide_true, Bool.true_and]
  by_cases h24 : n < 24 <;> by_cases h20 : n < 20 <;>
    simp [h24, h20, Nat.not_le.mpr, Nat.le_of_not_lt, show n - 24 < 32 by omega, show n - 20 < 32 by omega]

@[simp] theorem operandField_pack (op : Opcode) (r : RegIndex) (a : Operand) : operandField (pack op r a) = a := by
  apply BitVec.eq_of_getLsbD_eq
  intro n hn
  simp only [operandField, BitVec.getLsbD_extractLsb', hn, decide_true, Bool.true_and, Nat.zero_add]
  rw [pack_getLsbD _ _ _ _ (by omega)]
  simp [show ¬ 24 ≤ n by omega, show ¬ 20 ≤ n by omega]

/-- The packed opcode is recovered where its bit 0, which the register field overlaps, is set (R73, R84). -/
theorem opcodeField_pack (op : Opcode) (r : RegIndex) (a : Operand) (hodd : op.getLsbD 0 = true) :
    opcodeField (pack op r a) = op := by
  apply BitVec.eq_of_getLsbD_eq
  intro n hn
  simp only [opcodeField, BitVec.getLsbD_extractLsb', hn, decide_true, Bool.true_and]
  rw [pack_getLsbD _ _ _ _ (by omega), BitVec.getLsbD_of_ge a (24 + n) (by omega)]
  rcases n with _ | n
  · simp [hodd]
  · simp [BitVec.getLsbD_of_ge r (24 + (n + 1) - 20) (by omega)]

/-- The decoded register has bit 4 set where the packed opcode is odd (R73, R83, R84). -/
theorem regField_pack (op : Opcode) (r : RegIndex) (a : Operand) (hodd : op.getLsbD 0 = true) :
    regField (pack op r a) = r ||| 16 := by
  apply BitVec.eq_of_getLsbD_eq
  intro n hn
  simp only [regField, BitVec.getLsbD_extractLsb', hn, decide_true, Bool.true_and, BitVec.getLsbD_or]
  rw [pack_getLsbD _ _ _ _ (by omega), BitVec.getLsbD_of_ge a (20 + n) (by omega)]
  by_cases h4 : n = 4
  · subst h4; simp [hodd]
  · have : n < 4 := by omega
    simp only [show ¬ 24 ≤ 20 + n by omega, decide_false, Bool.false_and, Bool.false_or, Bool.or_false]
    interval_cases n <;> simp

@[simp] theorem opcodeOf_odd (m : Mnemonic) : (opcodeOf m).getLsbD 0 = true := by
  cases m <;> decide

/-- Bit 4 of a register index is set exactly where the index is 16 or more. -/
theorem or_sixteen_eq_self (r : RegIndex) : r ||| 16 = r ↔ 16 ≤ r.toNat := by
  revert r; decide

end Sys2Proof
end

