-- ==== Sys2Proof/Laws/State.lean ====
section
/-! SUPPORT. One lemma per field per update of the state, and the outcomes of reading a register after a write. -/

namespace Sys2Proof.Machine

section Updates
variable (s : State) (r : RegIndex) (a : CellIndex) (v : Value) (m : Mnemonic) (e : Effect) (c : FaultCause) (w : Word)

@[simp] theorem State.writeReg_mem : (s.writeReg r v).mem = s.mem := rfl
@[simp] theorem State.writeReg_pc : (s.writeReg r v).pc = s.pc := rfl
@[simp] theorem State.writeReg_status : (s.writeReg r v).status = s.status := rfl
@[simp] theorem State.writeReg_fcause : (s.writeReg r v).fcause = s.fcause := rfl
@[simp] theorem State.writeReg_findex : (s.writeReg r v).findex = s.findex := rfl
@[simp] theorem State.writeReg_fword : (s.writeReg r v).fword = s.fword := rfl
@[simp] theorem State.writeReg_trace : (s.writeReg r v).trace = s.trace := rfl
@[simp] theorem State.writeReg_program : (s.writeReg r v).program = s.program := rfl

@[simp] theorem State.memWrite_x : (s.memWrite a v).x = s.x := rfl
@[simp] theorem State.memWrite_pc : (s.memWrite a v).pc = s.pc := rfl
@[simp] theorem State.memWrite_status : (s.memWrite a v).status = s.status := rfl
@[simp] theorem State.memWrite_fcause : (s.memWrite a v).fcause = s.fcause := rfl
@[simp] theorem State.memWrite_findex : (s.memWrite a v).findex = s.findex := rfl
@[simp] theorem State.memWrite_fword : (s.memWrite a v).fword = s.fword := rfl
@[simp] theorem State.memWrite_trace : (s.memWrite a v).trace = s.trace := rfl
@[simp] theorem State.memWrite_program : (s.memWrite a v).program = s.program := rfl

@[simp] theorem State.retire_x : (s.retire m e).x = s.x := rfl
@[simp] theorem State.retire_mem : (s.retire m e).mem = s.mem := rfl
@[simp] theorem State.retire_pc : (s.retire m e).pc = s.pc + 1 := rfl
@[simp] theorem State.retire_status : (s.retire m e).status = s.status := rfl
@[simp] theorem State.retire_fcause : (s.retire m e).fcause = s.fcause := rfl
@[simp] theorem State.retire_findex : (s.retire m e).findex = s.findex := rfl
@[simp] theorem State.retire_fword : (s.retire m e).fword = s.fword := rfl
@[simp] theorem State.retire_trace : (s.retire m e).trace = s.trace ++ [⟨s.pc, m, e⟩] := rfl
@[simp] theorem State.retire_program : (s.retire m e).program = s.program := rfl

@[simp] theorem State.takeFault_x : (s.takeFault c w).x = s.x := rfl
@[simp] theorem State.takeFault_mem : (s.takeFault c w).mem = s.mem := rfl
@[simp] theorem State.takeFault_pc : (s.takeFault c w).pc = s.pc := rfl
@[simp] theorem State.takeFault_status : (s.takeFault c w).status = .fault := rfl
@[simp] theorem State.takeFault_fcause : (s.takeFault c w).fcause = c := rfl
@[simp] theorem State.takeFault_findex : (s.takeFault c w).findex = s.pc := rfl
@[simp] theorem State.takeFault_fword : (s.takeFault c w).fword = w := rfl
@[simp] theorem State.takeFault_trace : (s.takeFault c w).trace = s.trace := rfl
@[simp] theorem State.takeFault_program : (s.takeFault c w).program = s.program := rfl

@[simp] theorem State.endOfSequence_x : s.endOfSequence.x = s.x := rfl
@[simp] theorem State.endOfSequence_mem : s.endOfSequence.mem = s.mem := rfl
@[simp] theorem State.endOfSequence_pc : s.endOfSequence.pc = s.pc := rfl
@[simp] theorem State.endOfSequence_status : s.endOfSequence.status = .done := rfl
@[simp] theorem State.endOfSequence_fcause : s.endOfSequence.fcause = s.fcause := rfl
@[simp] theorem State.endOfSequence_findex : s.endOfSequence.findex = s.findex := rfl
@[simp] theorem State.endOfSequence_fword : s.endOfSequence.fword = s.fword := rfl
@[simp] theorem State.endOfSequence_trace : s.endOfSequence.trace = s.trace := rfl
@[simp] theorem State.endOfSequence_program : s.endOfSequence.program = s.program := rfl

@[simp] theorem State.memWrite_readReg (q : RegIndex) : (s.memWrite a v).readReg q = s.readReg q := rfl
@[simp] theorem State.retire_readReg (q : RegIndex) : (s.retire m e).readReg q = s.readReg q := rfl
@[simp] theorem State.takeFault_readReg (q : RegIndex) : (s.takeFault c w).readReg q = s.readReg q := rfl
@[simp] theorem State.endOfSequence_readReg (q : RegIndex) : s.endOfSequence.readReg q = s.readReg q := rfl
@[simp] theorem State.writeReg_memRead (b : CellIndex) : (s.writeReg r v).memRead b = s.memRead b := rfl
@[simp] theorem State.retire_memRead (b : CellIndex) : (s.retire m e).memRead b = s.memRead b := rfl
@[simp] theorem State.takeFault_memRead (b : CellIndex) : (s.takeFault c w).memRead b = s.memRead b := rfl
@[simp] theorem State.endOfSequence_memRead (b : CellIndex) : s.endOfSequence.memRead b = s.memRead b := rfl

end Updates

section Reset
variable (P : List Word)

@[simp] theorem State.resetWith_mem : (State.resetWith P).mem = [] := rfl
@[simp] theorem State.resetWith_pc : (State.resetWith P).pc = 0 := rfl
@[simp] theorem State.resetWith_status : (State.resetWith P).status = .run := rfl
@[simp] theorem State.resetWith_fcause : (State.resetWith P).fcause = .none := rfl
@[simp] theorem State.resetWith_findex : (State.resetWith P).findex = 0 := rfl
@[simp] theorem State.resetWith_fword : (State.resetWith P).fword = 0 := rfl
@[simp] theorem State.resetWith_trace : (State.resetWith P).trace = [] := rfl
@[simp] theorem State.resetWith_program : (State.resetWith P).program = P := rfl
@[simp] theorem State.resetWith_memRead (a : CellIndex) : (State.resetWith P).memRead a = 0 := rfl
@[simp] theorem State.resetWith_readReg (r : RegIndex) : (State.resetWith P).readReg r = 0 := by
  simp [State.readReg, State.resetWith]

end Reset

/-- A register reads as written, and every other register as before. -/
theorem State.writeReg_readReg (s : State) (r q : RegIndex) (v : Value) :
    (s.writeReg r v).readReg q = if q = r then v else s.readReg q := by
  have hne : q ≠ r → r.toNat ≠ q.toNat := fun h e => h (BitVec.eq_of_toNat_eq e.symm)
  by_cases h : q = r
  · subst h; simp [State.readReg, State.writeReg]
  · simp [State.readReg, State.writeReg, h, Vector.getElem_set_ne _ _ (hne h)]

@[simp] theorem State.writeReg_readReg_same (s : State) (r : RegIndex) (v : Value) :
    (s.writeReg r v).readReg r = v := by
  simp [State.writeReg_readReg]

end Sys2Proof.Machine
end

