-- ==== Sys2Proof/Laws/Memory.lean ====
section
/-! SUPPORT. The laws of the data memory: a read after a write, and the canonical form. -/

namespace Sys2Proof.Machine

@[simp] theorem Memory.read_nil (a : Nat) : Memory.read [] a = Memory.unlisted := rfl

@[simp] theorem Memory.read_cons (k : Nat) (v : Value) (m : Memory) (a : Nat) :
    Memory.read ((k, v) :: m) a = if k = a then v else Memory.read m a := rfl

theorem Memory.read_erase (m : Memory) (a b : Nat) :
    Memory.read (Memory.erase m a) b = if b = a then Memory.unlisted else Memory.read m b := by
  induction m with
  | nil => simp [Memory.erase]
  | cons e m ih =>
    obtain ⟨k, v⟩ := e
    simp only [Memory.erase] at ih ⊢
    by_cases hk : k = a
    · subst hk
      rw [List.filter_cons_of_neg (by simp), ih]
      by_cases hb : b = k
      · simp [hb]
      · simp [hb, Ne.symm hb]
    · rw [List.filter_cons_of_pos (by simpa using hk)]
      simp only [Memory.read_cons, ih]
      by_cases hb : b = a
      · subst hb; simp [hk]
      · simp [hb]

/-- Placing an entry for an index that the list does not name. -/
theorem Memory.read_place (m : Memory) (a b : Nat) (v : Value) (h : ∀ e ∈ m, e.1 ≠ a) :
    Memory.read (Memory.place m a v) b = if b = a then v else Memory.read m b := by
  induction m with
  | nil => simp only [Memory.place, Memory.read_cons, eq_comm (a := b)]
  | cons e m ih =>
    obtain ⟨k, u⟩ := e
    have hk : k ≠ a := h (k, u) (by simp)
    have ih := ih fun e he => h e (by simp [he])
    unfold Memory.place
    split
    · simp only [Memory.read_cons, eq_comm (a := b)]
    · simp only [Memory.read_cons, ih]
      by_cases hb : b = a
      · subst hb; simp [hk]
      · simp [hb]

theorem Memory.erase_ne (m : Memory) (a : Nat) : ∀ e ∈ Memory.erase m a, e.1 ≠ a := by
  intro e he
  simpa using (List.mem_filter.mp he).2

/-- A cell reads as written, and every other cell as before (R54). It needs no canonical form. -/
theorem Memory.read_write (m : Memory) (a b : Nat) (v : Value) :
    Memory.read (Memory.write m a v) b = if b = a then v else Memory.read m b := by
  unfold Memory.write
  split
  case isTrue hv => rw [Memory.read_erase, hv]
  case isFalse =>
    rw [Memory.read_place _ _ _ _ (Memory.erase_ne m a), Memory.read_erase]
    by_cases hb : b = a <;> simp [hb]

/-- A memory cell reads as written, and every other cell as before (R54). -/
theorem State.memWrite_memRead (s : State) (a b : CellIndex) (v : Value) :
    (s.memWrite a v).memRead b = if b = a then v else s.memRead b := by
  simp only [State.memRead, State.memWrite, Memory.read_write, Fin.ext_iff]

@[simp] theorem State.memWrite_memRead_same (s : State) (a : CellIndex) (v : Value) :
    (s.memWrite a v).memRead a = v := by
  simp [State.memWrite_memRead]

@[simp] theorem Memory.wf_nil : Memory.wf [] = true := rfl

theorem Memory.wf_cons (k : Nat) (v : Value) (m : Memory) :
    Memory.wf ((k, v) :: m) = true ↔
      k < Config.memSize ∧ v ≠ Memory.unlisted ∧ (∀ e ∈ m, k < e.1) ∧ Memory.wf m = true := by
  simp [Memory.wf, and_assoc]

theorem Memory.wf_erase (m : Memory) (a : Nat) (h : Memory.wf m = true) : Memory.wf (Memory.erase m a) = true := by
  induction m with
  | nil => simp [Memory.erase]
  | cons e m ih =>
    obtain ⟨k, v⟩ := e
    obtain ⟨hk, hv, hlt, hm⟩ := (Memory.wf_cons k v m).mp h
    have ih := ih hm
    simp only [Memory.erase] at ih ⊢
    rw [List.filter_cons]
    split
    · exact (Memory.wf_cons _ _ _).mpr ⟨hk, hv, fun e he => hlt e (List.mem_filter.mp he).1, ih⟩
    · exact ih

theorem Memory.mem_place (m : Memory) (a : Nat) (v : Value) (e : Nat × Value) :
    e ∈ Memory.place m a v ↔ e = (a, v) ∨ e ∈ m := by
  induction m with
  | nil => simp [Memory.place]
  | cons d m ih =>
    obtain ⟨k, u⟩ := d
    unfold Memory.place
    split
    · simp
    · simp [ih, or_left_comm]

theorem Memory.wf_place (m : Memory) (a : Nat) (v : Value) (h : Memory.wf m = true) (ha : a < Config.memSize)
    (hv : v ≠ Memory.unlisted) (hne : ∀ e ∈ m, e.1 ≠ a) : Memory.wf (Memory.place m a v) = true := by
  induction m with
  | nil => simpa [Memory.place, Memory.wf_cons] using ⟨ha, hv⟩
  | cons e m ih =>
    obtain ⟨k, u⟩ := e
    obtain ⟨hk, hu, hlt, hm⟩ := (Memory.wf_cons k u m).mp h
    have hka : k ≠ a := hne (k, u) (by simp)
    unfold Memory.place
    split
    case isTrue hak =>
      refine (Memory.wf_cons _ _ _).mpr ⟨ha, hv, fun d hd => ?_, h⟩
      rcases List.mem_cons.mp hd with rfl | hd
      · exact hak
      · exact hak.trans (hlt d hd)
    case isFalse hak =>
      refine (Memory.wf_cons _ _ _).mpr ⟨hk, hu, fun d hd => ?_, ih hm fun d hd => hne d (by simp [hd])⟩
      rcases (Memory.mem_place m a v d).mp hd with rfl | hd
      · exact Nat.lt_of_le_of_ne (Nat.le_of_not_lt hak) hka
      · exact hlt d hd

/-- Every write keeps the canonical form. -/
theorem Memory.wf_write (m : Memory) (a : CellIndex) (v : Value) (h : Memory.wf m = true) :
    Memory.wf (Memory.write m a.val v) = true := by
  unfold Memory.write
  split
  · exact Memory.wf_erase m a.val h
  case isFalse hv => exact Memory.wf_place _ _ _ (Memory.wf_erase m a.val h) a.isLt hv (Memory.erase_ne m a.val)

/-- Every operation over memory keeps the canonical form; the reset memory has it. -/
theorem State.memWrite_wf (s : State) (a : CellIndex) (v : Value) (h : Memory.wf s.mem = true) :
    Memory.wf (s.memWrite a v).mem = true :=
  Memory.wf_write s.mem a v h

theorem State.reset_wf : Memory.wf State.reset.mem = true := rfl

end Sys2Proof.Machine
end

