-- ==== Sys2Proof/Laws/PerInstr.lean ====
section
/-! SUPPORT. Statements made once per instruction. -/

namespace Sys2Proof.Laws

/-- Decoding an instruction's own word gives the same operation and the same operand, and its register with bit 4 set
(30_encoding.md R84). It holds for ill-formed instructions too. -/
def EncodedFields.Statement (i : Instr) : Prop :=
  opcodeField (encode i) = opcodeOf i.mnemonic ∧ regField (encode i) = i.reg ||| 16 ∧
    operandField (encode i) = i.operand

theorem EncodedFields.of_pack (i : Instr) : EncodedFields.Statement i :=
  ⟨opcodeField_pack _ _ _ (opcodeOf_odd _), regField_pack _ _ _ (opcodeOf_odd _), operandField_pack _ _ _⟩

theorem EncodedFields.loadConstant (reg : RegIndex) (operand : Operand) :
    EncodedFields.Statement (.loadConstant reg operand) := EncodedFields.of_pack _

theorem EncodedFields.loadMemory (reg : RegIndex) (operand : Operand) :
    EncodedFields.Statement (.loadMemory reg operand) := EncodedFields.of_pack _

theorem EncodedFields.storeToMemory (reg : RegIndex) (operand : Operand) :
    EncodedFields.Statement (.storeToMemory reg operand) := EncodedFields.of_pack _

theorem EncodedFields.unaryMinus (reg : RegIndex) (operand : Operand) :
    EncodedFields.Statement (.unaryMinus reg operand) := EncodedFields.of_pack _

end Sys2Proof.Laws
end

