-- ==== Sys2Proof/Laws/Step.lean ====
section
/-! SUPPORT. What the shared operations and the step can do, said once. -/

namespace Sys2Proof.Machine

/-- The validator accepts exactly the operands below `MEM_SIZE`, and names the cell with that index (R53). -/
theorem validate_eq_some {operand : Operand} {a : CellIndex} :
    validate operand = some a ↔ operand.toNat = a.val := by
  unfold validate
  split
  · simp [Fin.ext_iff]
  case isFalse h => simp only [reduceCtorEq, false_iff]; intro e; exact h (e ▸ a.isLt)

theorem validate_eq_none {operand : Operand} : validate operand = none ↔ 128 ≤ operand.toNat := by
  unfold validate
  split <;> simp_all

theorem withCell_some {i : Instr} {s : State} {effect : CellIndex → State} {a : CellIndex}
    (h : validate i.operand = some a) : withCell i s effect = .next (effect a) := by
  simp [withCell, h]

theorem withCell_none {i : Instr} {s : State} {effect : CellIndex → State}
    (h : validate i.operand = none) :
    withCell i s effect = .next (s.takeFault .addressOutOfRange (encode i)) := by
  simp [withCell, h]

/-- What an instruction can do to a state: complete with its effect, or, for a memory instruction with a rejected
operand, take AddressOutOfRange. -/
inductive ExecResult (s : State) : Instr → State → Prop where
  | loadConstant (r : RegIndex) (operand : Operand) :
      ExecResult s (.loadConstant r operand)
        ((s.writeReg r (immediate operand)).retire .loadConstant (.lc r (immediate operand)))
  | loadMemory (r : RegIndex) (operand : Operand) (a : CellIndex) (h : validate operand = some a) :
      ExecResult s (.loadMemory r operand)
        ((s.writeReg r (s.memRead a)).retire .loadMemory (.lm r a (s.memRead a)))
  | storeToMemory (r : RegIndex) (operand : Operand) (a : CellIndex) (h : validate operand = some a) :
      ExecResult s (.storeToMemory r operand)
        ((s.memWrite a (s.readReg r)).retire .storeToMemory (.st r a (s.readReg r)))
  | unaryMinus (r : RegIndex) (operand : Operand) (a : CellIndex) (h : validate operand = some a) :
      ExecResult s (.unaryMinus r operand)
        ((s.memWrite a (negate (s.memRead a))).retire .unaryMinus (.neg a (s.memRead a) (negate (s.memRead a))))
  | outOfRange (i : Instr) (hm : i.mnemonic ≠ .loadConstant) (h : validate i.operand = none) :
      ExecResult s i (s.takeFault .addressOutOfRange (encode i))

/-- Every instruction answers a next state, which is one of the five results. -/
theorem exec_result (i : Instr) (s : State) : ∃ t, exec i s = .next t ∧ ExecResult s i t := by
  cases i with
  | loadConstant r a => exact ⟨_, rfl, .loadConstant r a⟩
  | loadMemory r a =>
    cases h : validate a with
    | some c => exact ⟨_, withCell_some h, .loadMemory r a c h⟩
    | none => exact ⟨_, withCell_none h, .outOfRange _ (by simp [Instr.mnemonic]) h⟩
  | storeToMemory r a =>
    cases h : validate a with
    | some c => exact ⟨_, withCell_some h, .storeToMemory r a c h⟩
    | none => exact ⟨_, withCell_none h, .outOfRange _ (by simp [Instr.mnemonic]) h⟩
  | unaryMinus r a =>
    cases h : validate a with
    | some c => exact ⟨_, withCell_some h, .unaryMinus r a c h⟩
    | none => exact ⟨_, withCell_none h, .outOfRange _ (by simp [Instr.mnemonic]) h⟩

theorem exec_cases {i : Instr} {s t : State} (h : exec i s = .next t) : ExecResult s i t := by
  obtain ⟨u, hu, hr⟩ := exec_result i s
  obtain rfl := Host.Outcome.next.inj (hu.symm.trans h)
  exact hr

/-- What a step can do: nothing when halted, the end of the sequence, `UnknownOpcode`, or an instruction. -/
inductive StepResult (s : State) : State → Prop where
  | halted (h : s.status ≠ .run) : StepResult s s
  | endOfSequence (h : s.status = .run) (hpc : s.pc = s.program.length) : StepResult s s.endOfSequence
  | unknownOpcode (h : s.status = .run) (w : Word) (hw : s.program[s.pc]? = some w) (e : DecodeError)
      (hd : decode w = .error e) : StepResult s (s.takeFault .unknownOpcode w)
  | instruction (h : s.status = .run) (w : Word) (hw : s.program[s.pc]? = some w) (i : Instr)
      (hd : decode w = .ok i) (t : State) (ht : ExecResult s i t) : StepResult s t

theorem step_of_halted {s : State} (h : s.status ≠ .run) : step s = .next s := by
  unfold step sequencerStep
  cases hs : s.status <;> simp_all

theorem step_of_end {s : State} (h : s.status = .run) (hpc : s.pc = s.program.length) :
    step s = .next s.endOfSequence := by
  simp [step, sequencerStep, runningStep, h, hpc]

theorem step_of_fetch {s : State} {w : Word} (h : s.status = .run) (hw : s.program[s.pc]? = some w) :
    step s = runWord w s := by
  have hpc : s.pc ≠ s.program.length := by
    have := (List.getElem?_eq_some_iff.mp hw).1
    omega
  simp [step, sequencerStep, runningStep, State.fetch, h, hpc, hw]

theorem step_of_unknown {s : State} {w : Word} {e : DecodeError} (h : s.status = .run)
    (hw : s.program[s.pc]? = some w) (hd : decode w = .error e) :
    step s = .next (s.takeFault .unknownOpcode w) := by
  rw [step_of_fetch h hw]; simp [runWord, hd]

theorem step_of_decode {s : State} {w : Word} {i : Instr} (h : s.status = .run)
    (hw : s.program[s.pc]? = some w) (hd : decode w = .ok i) : step s = exec i s := by
  rw [step_of_fetch h hw]; simp [runWord, hd]

/-- While `pc` is at most PROG_LEN, the step answers a next state, which is one of the four results. -/
theorem step_result {s : State} (hpc : s.pc ≤ s.program.length) : ∃ t, step s = .next t ∧ StepResult s t := by
  by_cases h : s.status = .run
  · rcases Nat.eq_or_lt_of_le hpc with he | hlt
    · exact ⟨_, step_of_end h he, .endOfSequence h he⟩
    · have hw : s.program[s.pc]? = some s.program[s.pc] := List.getElem?_eq_getElem hlt
      cases hd : decode s.program[s.pc] with
      | error e => exact ⟨_, step_of_unknown h hw hd, .unknownOpcode h _ hw e hd⟩
      | ok i =>
        obtain ⟨t, ht, hr⟩ := exec_result i s
        exact ⟨t, (step_of_decode h hw hd).trans ht, .instruction h _ hw i hd t hr⟩
  · exact ⟨s, step_of_halted h, .halted h⟩

/-- Above PROG_LEN a running block has no step: the model's own stop. -/
theorem step_outside {s : State} (h : s.status = .run) (hpc : s.program.length < s.pc) :
    step s = .fault .fetchOutsideProgram := by
  simp [step, sequencerStep, runningStep, State.fetch, h, Nat.ne_of_gt hpc, Nat.le_of_lt hpc]

/-- If a step answers a next state, it is one of the four results. -/
theorem step_cases {s t : State} (h : step s = .next t) : StepResult s t := by
  rcases Nat.lt_or_ge s.program.length s.pc with hpc | hpc
  · by_cases hr : s.status = .run
    · rw [step_outside hr hpc] at h; cases h
    · rw [step_of_halted hr] at h; obtain rfl := Host.Outcome.next.inj h; exact .halted hr
  · obtain ⟨u, hu, hr⟩ := step_result hpc
    obtain rfl := Host.Outcome.next.inj (hu.symm.trans h)
    exact hr

end Sys2Proof.Machine
end

