-- ==== Sys2Proof/Laws/Run.lean ====
section
/-! SUPPORT. One induction over steps, and what the replay functions make of a longer trace. -/

namespace Sys2Proof.Machine

/-- A relation that holds of a state and itself, and that a step before it keeps, holds along any number of steps. -/
theorem steps_induction {Q : State → State → Prop} (refl : ∀ s, Q s s)
    (trans : ∀ s t u, step s = .next t → Q t u → Q s u) : ∀ n s t, steps n s = .next t → Q s t := by
  intro n
  induction n with
  | zero => intro s t h; obtain rfl := Host.Outcome.next.inj h; exact refl s
  | succ n ih =>
    intro s t h
    unfold steps at h
    cases hs : step s with
    | next u => rw [hs] at h; exact trans s u t hs (ih u t h)
    | fault r => rw [hs] at h; cases h
    | refused r => rw [hs] at h; cases h

theorem cellAfter_append (a : CellIndex) (es fs : List RetireEvent) :
    ∀ v, cellAfter a v (es ++ fs) = cellAfter a (cellAfter a v es) fs := by
  induction es with
  | nil => intro v; rfl
  | cons e es ih => intro v; exact ih _

theorem regAfter_append (r : RegIndex) (es fs : List RetireEvent) :
    ∀ v, regAfter r v (es ++ fs) = regAfter r (regAfter r v es) fs := by
  induction es with
  | nil => intro v; rfl
  | cons e es ih => intro v; exact ih _

end Sys2Proof.Machine
end

