-- ==== Sys2Proof/Tests/Slice0.lean ====
section
/-! SUPPORT. The model's own tests. Expected results are those of spec/95_test_vectors.md, or written out by hand from
the encoding tables of 30_encoding.md; the witnesses show that the hypotheses of each statement are met. -/

namespace Sys2Proof.Tests

open Sys2Proof.Machine

/-- The state after a reset with a one-word program, with two registers and a memory set as a vector's pre-state says. -/
def ready (w : Word) (regs : List (RegIndex × Value)) (m : Memory) : State :=
  { regs.foldl (fun s p => s.writeReg p.1 p.2) (State.resetWith [w]) with mem := m }

/-- The state a step leads to (the state itself where the step stops). -/
def after (s : State) : State :=
  match Sys2Proof.Machine.step s with
  | .next t => t
  | .fault _ => s
  | .refused _ => s

/-- Text for a source line. -/
abbrev text (s : String) : Text := s.toList

/-! ### Well-formedness (R79) -/

theorem test_wellFormed_refuses_low_register : (Instr.loadConstant 15 0).wellFormed = false := by decide
theorem test_wellFormed_refuses_low_register_unused : (Instr.unaryMinus 0 5).wellFormed = false := by decide
theorem test_wellFormed_accepts_far_operand : (Instr.loadMemory 16 0xFFFFF).wellFormed = true := by decide

/-! ### Decoding, from words written out bit by bit (30_encoding.md R71, R77; 95_test_vectors.md) -/

theorem test_decode_loadConstant :
    decode 0b00001101_0101_00000000000000001010#32 = .ok (.loadConstant 21 10) := by decide
theorem test_decode_loadMemory :
    decode 0b00001011_0001_00000000000001100100#32 = .ok (.loadMemory 17 100) := by decide
theorem test_decode_storeToMemory :
    decode 0b00010101_0000_00000000000001111111#32 = .ok (.storeToMemory 16 127) := by decide
theorem test_decode_unaryMinus :
    decode 0b00011111_0000_11111111111111111111#32 = .ok (.unaryMinus 16 1048575) := by decide
theorem test_decode_rejects_zero : decode 0#32 = .error (.unknownOpcode 0) := by decide
theorem test_decode_rejects_neighbour : decode 0x0C500000#32 = .error (.unknownOpcode 12) := by decide
theorem test_decode_compares_bit_31 : decode 0x8D000000#32 = .error (.unknownOpcode 141) := by decide
theorem test_decodeBytes_big_endian :
    decodeBytes [0x15, 0x50, 0x00, 0x64] = .ok (.storeToMemory 21 100) := by decide
theorem test_decodeBytes_rejects_three_bytes : decodeBytes [0x15, 0x50, 0x00] = .error (.notOneWord 3) := by decide
theorem test_encode_alias : encode (.loadConstant 5 10) = 0x0D50000A#32 := by decide
theorem test_decodeTableWord : decodeTableWord 32 0x1F500064 = some (.unaryMinus 21 100) := by decide
theorem test_withFetchWord :
    (after (State.reset.withFetchWord 32 0x0D500007)).readReg 21 = 7 ∧
      (after (State.reset.withFetchWord 32 0x0D500007)).pc = 1 := by decide
theorem test_loadImage :
    loadImage [0x0D, 0x50, 0x00, 0x0A, 0x15, 0x50, 0x00, 0x64] = .ok [0x0D50000A#32, 0x15500064#32] := by decide

/-! ### One step of each kind (95_test_vectors.md, derived vectors per instruction) -/

theorem test_loadConstant :
    let t := after (ready 0x0D50000A [] [])
    t.readReg 21 = 10 ∧ t.readReg 5 = 0 ∧ t.pc = 1 ∧ t.trace = [⟨0, .loadConstant, .lc 21 10⟩] := by decide
theorem test_loadConstant_widest : (after (ready 0x0D0FFFFF [] [])).readReg 16 = 1048575 := by decide
theorem test_loadMemory :
    let t := after (ready 0x0B100064 [] [(100, 0xFFFFFFF6)])
    t.readReg 17 = 0xFFFFFFF6 ∧ t.memRead 100 = 0xFFFFFFF6 := by decide
theorem test_loadMemory_out_of_range :
    let t := after (ready 0x0B000080 [(16, 3)] [])
    t.hostStatus = 2 ∧ t.hostFcause = 2 ∧ t.findex = 0 ∧ t.fword = 0x0B000080 ∧ t.readReg 16 = 3 ∧ t.pc = 0 ∧
      t.trace = [] := by decide
theorem test_storeToMemory :
    let t := after (ready 0x15500064 [(21, 10)] [])
    t.mem = [(100, 10)] ∧ t.readReg 21 = 10 ∧ t.trace = [⟨0, .storeToMemory, .st 21 100 10⟩] := by decide
theorem test_storeToMemory_out_of_range :
    let t := after (ready 0x15000080 [(16, 7)] [])
    t.mem = [] ∧ t.hostStatus = 2 ∧ t.faultAddress = 128 := by decide
theorem test_unaryMinus_ignores_register :
    let t := after (ready 0x1FF00005 [(31, 9)] [(5, 4)])
    t.mem = [(5, 0xFFFFFFFC)] ∧ t.readReg 31 = 9 ∧ t.trace = [⟨0, .unaryMinus, .neg 5 4 0xFFFFFFFC⟩] := by decide
theorem test_unaryMinus_most_negative :
    (after (ready 0x1F000000 [] [(0, 0x80000000)])).memRead 0 = 0x80000000 := by decide
theorem test_unknownOpcode :
    let t := after (ready 0xFFFFFFFF [] [])
    t.hostStatus = 2 ∧ t.hostFcause = 1 ∧ t.findex = 0 ∧ t.fword = 0xFFFFFFFF ∧ t.pc = 0 := by decide
theorem test_end_of_empty_program :
    let t := after State.reset
    t.hostStatus = 1 ∧ t.pc = 0 ∧ t.trace = [] := by decide
theorem test_write_of_zero_unlists_the_cell : Memory.write [(5, 1), (100, 2)] 100 0 = [(5, 1)] := by decide
theorem test_write_between_keeps_order : Memory.write [(5, 1), (100, 2)] 7 3 = [(5, 1), (7, 3), (100, 2)] := by decide

/-! ### The assembler (95_test_vectors.md, derived vectors: assembler) -/

theorem test_assemble_first_error_only :
    assembleText '%' (text "LOAD_CONSTANT 1 1\nFOO 1 2") = .error (.unknownInstruction 2 (text "FOO")) := by decide
theorem test_assemble_mnemonic_before_count :
    assembleText '%' (text "FOO") = .error (.unknownInstruction 1 (text "FOO")) := by decide
theorem test_assemble_count :
    assembleText '%' (text "LOAD_CONSTANT 1 2 3") =
      .error (.invalidArgumentCount 1 (text "LOAD_CONSTANT 1 2 3")) := by decide
theorem test_assemble_hex_operand :
    assembleText '%' (text "LOAD_CONSTANT 0x10 1") = .error (.invalidOperand 1 (text "0x10")) := by decide
theorem test_assemble_negative : assembleText '%' (text "LOAD_CONSTANT -1 0") = .error (.outOfRange 1 (-1)) := by decide
theorem test_assemble_constant_bound :
    assembleText '%' (text "LOAD_CONSTANT 65536 0") = .error (.outOfRange 1 65536) := by decide
theorem test_assemble_blank_lines :
    assembleText '%' (text "\n\t\n  \nLOAD_CONSTANT 1 1") =
      .ok ⟨[0x0D100001#32], [⟨4, text "LOAD_CONSTANT 1 1", text "0D100001"⟩]⟩ := by decide
theorem test_assemble_comment_and_far_address :
    (assembleText '%' (text "% note\nLOAD_MEMORY 0 1048575")).map Assembly.words = .ok [0x0B0FFFFF#32] := by decide

/-! ### Witnesses: the hypotheses of each statement are met -/

theorem witness_DecodeInvertsEncode :
    (Instr.storeToMemory 16 0).wellFormed = true ∧ (Instr.unaryMinus 31 0xFFFFF).wellFormed = true := by decide

theorem witness_EncodeInvertsDecode_and_RecognisedRegisterIsHigh :
    decode 0x15F00000#32 = .ok (.storeToMemory 31 0) ∧ decode 0x1F0FFFFF#32 = .ok (.unaryMinus 16 1048575) := by decide

theorem witness_PackedWordRoundTrip :
    (31 ∈ [11, 13, 21, 31] ∧ 31 < 32 ∧ 1048575 < 2 ^ 20) ∧ (11 ∈ [11, 13, 21, 31] ∧ 0 < 32 ∧ 0 < 2 ^ 20) := by decide

theorem witness_LowRegisterAliasesHigh : ∃ r : Nat, r < 16 ∧ r = 15 := by decide

theorem witness_ImageWordsAreBigEndian :
    loadImage [0x0D, 0x50, 0x00, 0x0A] = .ok [0x0D50000A#32] ∧ [0x0D50000A#32][0]? = some 0x0D50000A#32 := by decide

theorem witness_RaggedImageRefused :
    ([1, 2, 3] : List Byte).length % 4 ≠ 0 ∧ ([1, 2, 3, 4] : List Byte).length % 4 = 0 := by decide

theorem witness_ValidatorAcceptsBelow128 :
    validate 127 = some 127 ∧ inRange 127 = true ∧ inRange 128 = false ∧
      (Instr.unaryMinus 16 128).operand = 128 ∧ (Instr.unaryMinus 16 128).mnemonic ≠ .loadConstant := by decide

theorem witness_CellWriteChangesOneCell_and_EveryRegisterHoldsItsWrite :
    (126 : CellIndex) ≠ 127 ∧ (31 : RegIndex) ≠ 16 := by decide

theorem witness_LoadConstantResult : opcodeField 0x0D0FFFFF#32 = 13 := by decide

theorem witness_LoadMemoryResult :
    opcodeField 0x0B00007F#32 = 11 ∧ validate 127 = some 127 ∧ validate 128 = none := by decide

theorem witness_StoreToMemoryResult :
    opcodeField 0x1500007F#32 = 21 ∧ validate 0 = some 0 ∧ validate 0xFFFFF = none := by decide

theorem witness_UnaryMinusResult_and_IgnoresRegister :
    opcodeField 0x1F000080#32 = 31 ∧ validate 127 = some 127 ∧ validate 128 = none := by decide

theorem witness_StepRunsDecodedInstruction :
    let s := ready 0x15500064 [(21, 10)] []
    s.status = .run ∧ s.program[s.pc]? = some 0x15500064 ∧ decode 0x15500064 = .ok (.storeToMemory 21 100) := by decide

theorem witness_EndOfSequenceSetsDone :
    State.reset.status = .run ∧ State.reset.pc = State.reset.program.length ∧
      (after (ready 0x0D50000A [] [])).pc = 1 ∧ (after (ready 0x0D50000A [] [])).status = .run := by decide

theorem witness_HaltIsFinal :
    (after State.reset).status = .done ∧ (after (ready 0 [] [])).status = .fault := by decide

theorem witness_UnknownOpcodeTaken :
    let s := ready 0x0CFFFFFF [] []
    s.status = .run ∧ s.program[s.pc]? = some 0x0CFFFFFF ∧ (opcodeField 0x0CFFFFFF).toNat ∉ [11, 13, 21, 31] := by decide

theorem witness_AddressOutOfRangeTaken :
    (let s := ready 0x1F000080 [] []
     s.status = .run ∧ s.program[s.pc]? = some 0x1F000080 ∧ (opcodeField 0x1F000080).toNat ∈ [11, 21, 31] ∧
       128 ≤ (operandField 0x1F000080).toNat) ∧
    (let s := ready 0x0D0FFFFF [] []
     s.status = .run ∧ s.program[s.pc]? = some 0x0D0FFFFF ∧ (opcodeField 0x0D0FFFFF).toNat = 13) := by decide

theorem witness_FaultsArePrecise :
    ∃ s t : State, Sys2Proof.Machine.step s = .next t ∧ s.status ≠ .fault ∧ t.status = .fault :=
  ⟨ready 0x0B000080 [(16, 3)] [], after (ready 0x0B000080 [(16, 3)] []), rfl, by decide, by decide⟩

theorem witness_StepAdvancesOrStays :
    (∃ s t : State, Sys2Proof.Machine.step s = .next t ∧ t.pc = s.pc + 1) ∧
    (∃ s t : State, Sys2Proof.Machine.step s = .next t ∧ t.pc = s.pc) :=
  ⟨⟨ready 0x0D50000A [] [], after (ready 0x0D50000A [] []), rfl, by decide⟩,
    ⟨State.reset, after State.reset, rfl, by decide⟩⟩

theorem witness_ModelNeverStopsWithinProgram_and_EveryRunEnds :
    (ready 0 [] []).pc ≤ (ready 0 [] []).program.length ∧ State.reset.pc = State.reset.program.length := by decide

theorem witness_StepAboveProgramStops :
    let s := { State.reset with pc := 1 }
    s.status = .run ∧ s.program.length < s.pc := by decide

theorem witness_ProgramIsImmutable :
    ∃ s t : State, steps 2 s = .next t :=
  ⟨ready 0x0D50000A [] [], after (after (ready 0x0D50000A [] [])), rfl⟩

theorem witness_PlacedWordRunsNext : decodeTableWord 32 0x0D50000A = some (.loadConstant 21 10) := by decide

theorem witness_StepKeepsStoreInv :
    ∃ s t : State, StoreInv s ∧ Sys2Proof.Machine.step s = .next t :=
  ⟨ready 0x1500007F [(16, 1)] [(5, 1)], after (ready 0x1500007F [(16, 1)] [(5, 1)]), ⟨by decide, by decide⟩, rfl⟩

theorem witness_StepKeepsRecordInv :
    ∃ s t : State, RecordInv s ∧ Sys2Proof.Machine.step s = .next t :=
  ⟨ready 0 [] [], after (ready 0 [] []), ⟨rfl, rfl, rfl⟩, rfl⟩

theorem witness_StepKeepsTraceInv :
    ∃ s t : State, TraceInv s ∧ Sys2Proof.Machine.step s = .next t :=
  ⟨State.resetWith [0x1F000000], after (State.resetWith [0x1F000000]), ⟨rfl, by simp⟩, rfl⟩

theorem witness_StepKeepsReplayInv :
    ∃ s t : State, ReplayInv s ∧ Sys2Proof.Machine.step s = .next t :=
  ⟨State.resetWith [0x0D50000A], after (State.resetWith [0x0D50000A]),
    ⟨by simp [regAfter], by simp [cellAfter]⟩, rfl⟩

theorem witness_StepKeepsRangeInv :
    ∃ s t : State, RangeInv s ∧ Sys2Proof.Machine.step s = .next t :=
  ⟨State.resetWith [0x0D0FFFFF], after (State.resetWith [0x0D0FFFFF]),
    ⟨by simp [InRunRange], by simp [InRunRange]⟩, rfl⟩

theorem witness_NegationExactFromReset :
    ∃ (P : List Word) (s : State), steps 2 (State.resetWith P) = .next s :=
  ⟨[0x0D0FFFFF, 0x15000000], after (after (State.resetWith [0x0D0FFFFF, 0x15000000])), rfl⟩

theorem witness_LowRegistersNeverWritten :
    LowRegistersZero (State.resetWith [0x0D000001]) ∧ (15 : RegIndex).toNat < 16 ∧
      ∃ t, Sys2Proof.Machine.step (State.resetWith [0x0D000001]) = .next t :=
  ⟨fun r _ => by simp, by decide, _, rfl⟩

theorem witness_LowRegistersNeverRead :
    ∃ s t s' : State, AgreeButLowRegisters s t ∧ s.readReg 15 ≠ t.readReg 15 ∧ Sys2Proof.Machine.step s = .next s' :=
  ⟨State.resetWith [0x15000000], (State.resetWith [0x15000000]).writeReg 15 7, after (State.resetWith [0x15000000]),
    ⟨fun r h => by
      rw [State.writeReg_readReg, if_neg]
      rintro rfl
      exact absurd h (by decide), rfl, rfl, ⟨rfl, rfl, rfl, rfl⟩, rfl, rfl⟩,
    by decide, rfl⟩

/-- A store, one step that writes no cell, and a load of the same cell. -/
def storeThenLoad : State := State.resetWith [0x1500007F, 0x0D000009, 0x0B10007F]

theorem witness_LoadReturnsLastStore :
    validate 127 = some 127 ∧ AboutToRun storeThenLoad (.storeToMemory 16 127) ∧
      Sys2Proof.Machine.step storeThenLoad = .next (after storeThenLoad) ∧
      steps 1 (after storeThenLoad) = .next (after (after storeThenLoad)) ∧
      NoWriteBetween 127 (after storeThenLoad) (after (after storeThenLoad)) ∧
      AboutToRun (after (after storeThenLoad)) (.loadMemory 17 127) ∧
      Sys2Proof.Machine.step (after (after storeThenLoad)) = .next (after (after (after storeThenLoad))) :=
  ⟨by decide, ⟨rfl, 0x1500007F, by decide, by decide⟩, rfl, rfl,
    ⟨[⟨1, .loadConstant, .lc 16 9⟩], by decide, by simp [RetireEvent.cellWrite]⟩,
    ⟨rfl, 0x0B10007F, by decide, by decide⟩, rfl⟩

/-- Two negations of one cell with a load of it between them. -/
def negateTwice : State := { State.resetWith [0x1F000005, 0x0B000005, 0x1F100005] with mem := [(5, 4)] }

theorem witness_DoubleNegationRestoresCell :
    validate 5 = some 5 ∧ AboutToRun negateTwice (.unaryMinus 16 5) ∧
      Sys2Proof.Machine.step negateTwice = .next (after negateTwice) ∧
      steps 1 (after negateTwice) = .next (after (after negateTwice)) ∧
      NoWriteBetween 5 (after negateTwice) (after (after negateTwice)) ∧
      AboutToRun (after (after negateTwice)) (.unaryMinus 17 5) ∧
      Sys2Proof.Machine.step (after (after negateTwice)) = .next (after (after (after negateTwice))) :=
  ⟨by decide, ⟨rfl, 0x1F000005, by decide, by decide⟩, rfl, rfl,
    ⟨[⟨1, .loadMemory, .lm 16 5 0xFFFFFFFC⟩], by decide, by simp [RetireEvent.cellWrite]⟩,
    ⟨rfl, 0x1F100005, by decide, by decide⟩, rfl⟩

theorem witness_LoadConstantLineAssembles :
    (∃ v r : Nat, (65535 : Int) = v ∧ (31 : Int) = r ∧ v < 65536 ∧ r < 32) ∧
      ¬ ((0 : Int) ≤ 65536 ∧ (65536 : Int) < 65536) ∧ ((0 : Int) ≤ 0 ∧ (0 : Int) < 65536) ∧
      ¬ ((0 : Int) ≤ 32 ∧ (32 : Int) < 32) :=
  ⟨⟨65535, 31, by decide⟩, by decide⟩

theorem witness_MemoryLineAssembles :
    ((Mnemonic.unaryMinus, 31) ∈ [(Mnemonic.loadMemory, 11), (Mnemonic.storeToMemory, 21), (Mnemonic.unaryMinus, 31)]) ∧
      (∃ r a : Nat, (31 : Int) = r ∧ (1048575 : Int) = a ∧ r < 32 ∧ a < 1048576) ∧
      ¬ ((0 : Int) ≤ -1 ∧ (-1 : Int) < 32) ∧ ((0 : Int) ≤ 31 ∧ (31 : Int) < 32) ∧
      ¬ ((0 : Int) ≤ 1048576 ∧ (1048576 : Int) < 1048576) :=
  ⟨by decide, ⟨31, 1048575, by decide⟩, by decide⟩

theorem witness_LineChecksRunInOrder_mnemonic :
    tokens (text "FOO 1") = [text "FOO", text "1"] ∧ (text "FOO").head? ≠ some '%' ∧
      parseMnemonic (text "FOO") = none := by decide

theorem witness_LineChecksRunInOrder_count :
    tokens (text "LOAD_MEMORY 1 2 3") = [text "LOAD_MEMORY", text "1", text "2", text "3"] ∧
      (text "LOAD_MEMORY").head? ≠ some '%' ∧ parseMnemonic (text "LOAD_MEMORY") = some .loadMemory ∧
      [text "1", text "2", text "3"].length ≠ 2 := by decide

theorem witness_LineChecksRunInOrder_operands :
    tokens (text "UNARY_MINUS x -1 ") = [text "UNARY_MINUS", text "x", text "-1"] ∧
      tokens (text "UNARY_MINUS -1\tx") = [text "UNARY_MINUS", text "-1", text "x"] ∧
      (text "UNARY_MINUS").head? ≠ some '%' ∧ parseMnemonic (text "UNARY_MINUS") = some .unaryMinus ∧
      parseOperand (text "x") = none ∧ parseOperand (text "-1") = some (-1) := by decide

theorem witness_BlankAndCommentLinesAreSkipped :
    (∀ c ∈ text " \t", isBlank c = true) ∧ text " \t% x" = text " \t" ++ '%' :: text " x" ∧ isBlank '%' = false :=
  ⟨by rw [show text " \t" = [' ', '\t'] from rfl]; simp [isBlank], rfl, by decide⟩

theorem witness_AssemblyStopsAtFirstError :
    assembleLines '%' 1 [text "LOAD_CONSTANT 1 1"] =
        .ok ⟨[0x0D100001#32], [⟨1, text "LOAD_CONSTANT 1 1", text "0D100001"⟩]⟩ ∧
      assembleLine '%' (1 + 1) (text "FOO 1 2") = .error (.unknownInstruction 2 (text "FOO")) := by decide

theorem test_hexOfWord : hexOfWord 0x0D50000A#32 = text "0D50000A" := by decide

theorem witness_HexDigitsOfWord : 0 < 8 ∧ 7 < 8 := by decide

theorem witness_AssembledWordsAreRecognised :
    assembleText '%' (text "UNARY_MINUS 31 127") =
      .ok ⟨[0x1FF0007F#32], [⟨1, text "UNARY_MINUS 31 127", text "1FF0007F"⟩]⟩ := by decide

end Sys2Proof.Tests
end

namespace Sys2Proof.Machine

/-! ### The register file (10_state.md R22) -/

theorem State.writeReg_readReg_of_ne (s : State) {r q : RegIndex} (v : Value) (h : q ≠ r) :
    (s.writeReg r v).readReg q = s.readReg q := by
  rw [State.writeReg_readReg, if_neg h]

/-- Settles O16: the register written reads as written, and every other one as before. -/
theorem everyRegisterHoldsItsWrite : Obligations.EveryRegisterHoldsItsWrite := fun s r v =>
  ⟨s.writeReg_readReg_same r v, fun _ hq => s.writeReg_readReg_of_ne v hq⟩

/-! ### Completing an instruction, or not (10_state.md R34) -/

/-- Completion after a register write: the two instructions that load. -/
theorem Retired.of_writeReg (s : State) (r : RegIndex) (v : Value) (m : Mnemonic) (e : Effect) :
    Retired m e s ((s.writeReg r v).retire m e) :=
  ⟨rfl, rfl, ⟨rfl, rfl, rfl, rfl⟩, rfl⟩

/-- Completion after a cell write: the two instructions that write memory. -/
theorem Retired.of_memWrite (s : State) (a : CellIndex) (v : Value) (m : Mnemonic) (e : Effect) :
    Retired m e s ((s.memWrite a v).retire m e) :=
  ⟨rfl, rfl, ⟨rfl, rfl, rfl, rfl⟩, rfl⟩

theorem FaultTaken.of_takeFault (s : State) (c : FaultCause) (w : Word) : FaultTaken c w s (s.takeFault c w) :=
  ⟨rfl, rfl, rfl, rfl, fun _ => rfl, fun _ => rfl, rfl, rfl, rfl⟩

/-- An instruction completes with one retire event, or takes AddressOutOfRange on its own word. -/
theorem ExecResult.retired_or_faultTaken {s t : State} {i : Instr} (h : ExecResult s i t) :
    (∃ m e, Retired m e s t) ∨ FaultTaken .addressOutOfRange (encode i) s t := by
  cases h with
  | loadConstant r operand => exact .inl ⟨_, _, .of_writeReg ..⟩
  | loadMemory r operand a _ => exact .inl ⟨_, _, .of_writeReg ..⟩
  | storeToMemory r operand a _ => exact .inl ⟨_, _, .of_memWrite ..⟩
  | unaryMinus r operand a _ => exact .inl ⟨_, _, .of_memWrite ..⟩
  | outOfRange _ _ _ => exact .inr (.of_takeFault ..)

/-- `t` is halted, and equal to `s` in all but the four record registers: what every step does that completes no
instruction. -/
structure HaltsInPlace (s t : State) : Prop where
  pc : t.pc = s.pc
  trace : t.trace = s.trace
  regs : ∀ r, t.readReg r = s.readReg r
  cells : ∀ a, t.memRead a = s.memRead a
  program : t.program = s.program
  halted : t.status ≠ .run

theorem FaultTaken.haltsInPlace {c : FaultCause} {w : Word} {s t : State} (h : FaultTaken c w s t) :
    HaltsInPlace s t :=
  ⟨h.pc, h.trace, h.regs, h.cells, h.program, by simp [h.status]⟩

/-- A step completes the instruction at a `pc` below PROG_LEN, or halts in place. -/
theorem StepResult.retired_or_haltsInPlace {s t : State} (h : StepResult s t) :
    (s.status = .run ∧ s.pc < s.program.length ∧ ∃ m e, Retired m e s t) ∨ HaltsInPlace s t := by
  cases h with
  | halted hs => exact .inr ⟨rfl, rfl, fun _ => rfl, fun _ => rfl, rfl, hs⟩
  | endOfSequence _ _ => exact .inr ⟨rfl, rfl, fun _ => rfl, fun _ => rfl, rfl, by simp⟩
  | unknownOpcode _ w _ _ _ => exact .inr (FaultTaken.of_takeFault s _ w).haltsInPlace
  | instruction hs _ hw i _ _ ht =>
    obtain ⟨hlt, _⟩ := List.getElem?_eq_some_iff.mp hw
    exact ht.retired_or_faultTaken.imp (fun hr => ⟨hs, hlt, hr⟩) FaultTaken.haltsInPlace

/-- Settles O29: `pc` stays within PROG_LEN because only a word fetched below PROG_LEN can complete. -/
theorem stepAdvancesOrStays : Obligations.StepAdvancesOrStays := by
  intro s t h
  obtain ⟨hrun, hlt, m, e, hr⟩ | hh := (step_cases h).retired_or_haltsInPlace
  · refine ⟨.inl ⟨hr.pc, ⟨m, e, hr.trace⟩, hr.record, hrun⟩, fun _ => ?_⟩
    rw [hr.pc, hr.program]
    exact hlt
  · refine ⟨.inr ⟨hh.pc, hh.trace, hh.regs, hh.cells, hh.halted⟩, fun hle => ?_⟩
    rw [hh.pc, hh.program]
    exact hle

end Sys2Proof.Machine

namespace Sys2Proof

/-! ### The loader (20_memory.md R57) -/

/-- The words of an image run out in the middle of one exactly when its length is not a multiple of 4. -/
theorem wordsOfImage_eq_none : ∀ {bs : List Byte}, wordsOfImage bs = none ↔ bs.length % 4 ≠ 0
  | [] => by simp [wordsOfImage]
  | [_] | [_, _] | [_, _, _] => by simp [wordsOfImage]
  | _ :: _ :: _ :: _ :: bs => by
    have ih : wordsOfImage bs = none ↔ bs.length % 4 ≠ 0 := wordsOfImage_eq_none
    simp only [wordsOfImage, Option.map_eq_none_iff, ih, List.length_cons]
    omega

theorem loadImage_of_ragged {bs : List Byte} (h : bs.length % 4 ≠ 0) :
    loadImage bs = .error (.imageLength bs.length) := by
  simp [loadImage, wordsOfImage_eq_none.mpr h]

theorem loadImage_of_whole {bs : List Byte} (h : bs.length % 4 = 0) : ∃ P, loadImage bs = .ok P := by
  have hwords : wordsOfImage bs ≠ none := fun hnone => wordsOfImage_eq_none.mp hnone h
  obtain ⟨P, hP⟩ := Option.ne_none_iff_exists'.mp hwords
  exact ⟨P, by simp [loadImage, hP]⟩

end Sys2Proof

namespace Sys2Proof.Machine

theorem State.resetImage_of_ok {bs : List Byte} {P : List Word} (h : loadImage bs = .ok P) :
    State.resetImage bs = .ok (State.resetWith P) := by
  simp [State.resetImage, h]

theorem State.resetImage_of_error {bs : List Byte} {e : DecodeError} (h : loadImage bs = .error e) :
    State.resetImage bs = .error e := by
  simp [State.resetImage, h]

/-- Settles O12: a reset from an image answers what the loader makes of it. -/
theorem raggedImageRefused : Obligations.RaggedImageRefused := by
  refine fun bs => ⟨fun hragged => ?_, fun hwhole => ?_⟩
  · have hload := loadImage_of_ragged hragged
    exact ⟨hload, State.resetImage_of_error hload⟩
  · obtain ⟨P, hload⟩ := loadImage_of_whole hwhole
    exact ⟨P, hload, State.resetImage_of_ok hload⟩

/-! ### The validator (20_memory.md R53) -/

theorem inRange_eq_false {operand : Operand} : inRange operand = false ↔ validate operand = none := by
  simp [inRange]

theorem inRange_iff_exists_cell {operand : Operand} :
    inRange operand = true ↔ ∃ c, validate operand = some c :=
  Option.isSome_iff_exists

theorem inRange_iff_lt {operand : Operand} : inRange operand = true ↔ operand.toNat < 128 := by
  rw [← not_iff_not, Bool.not_eq_true, inRange_eq_false, validate_eq_none, not_lt]

/-- Below 128, compared unsigned, is the same as bits [19:7] at zero. -/
theorem lt_128_iff_highBits_eq_zero (operand : Operand) :
    operand.toNat < 128 ↔ operand.extractLsb' 7 13 = 0 := by
  have hbound : operand.toNat < 2 ^ 20 := operand.isLt
  rw [← BitVec.toNat_inj, BitVec.extractLsb'_toNat, Nat.shiftRight_eq_div_pow, BitVec.ofNat_eq_ofNat,
    BitVec.toNat_zero]
  omega

/-- A memory instruction whose operand the validator rejects takes AddressOutOfRange, and does nothing else. -/
theorem exec_of_outOfRange {i : Instr} (s : State) (hm : i.mnemonic ≠ .loadConstant)
    (h : validate i.operand = none) : exec i s = .next (s.takeFault .addressOutOfRange (encode i)) := by
  cases i with
  | loadConstant r a => exact absurd rfl hm
  | loadMemory r a => exact withCell_none h
  | storeToMemory r a => exact withCell_none h
  | unaryMinus r a => exact withCell_none h

/-- Settles O14: all of it rests on the one unsigned comparison of the validator. -/
theorem validatorAcceptsBelow128 : Obligations.ValidatorAcceptsBelow128 := by
  intro a
  refine ⟨inRange_iff_lt, inRange_iff_lt.trans (lt_128_iff_highBits_eq_zero a), fun c hc => ?_,
    inRange_iff_exists_cell, fun i s ha hm hrange => ?_⟩
  · exact (validate_eq_some.mp hc).symm
  · have hnone : validate i.operand = none := ha ▸ inRange_eq_false.mp hrange
    exact ⟨_, exec_of_outOfRange s hm hnone, rfl, rfl⟩

/-! ### The cells (20_memory.md R54, R66) -/

theorem State.memWrite_memRead_of_ne (s : State) {a b : CellIndex} (v : Value) (h : b ≠ a) :
    (s.memWrite a v).memRead b = s.memRead b := by
  rw [State.memWrite_memRead, if_neg h]

/-- Settles O15: the cell written reads as written, and every other one as before. -/
theorem cellWriteChangesOneCell : Obligations.CellWriteChangesOneCell := fun s a v =>
  ⟨s.memWrite_memRead_same a v, fun _ hb => s.memWrite_memRead_of_ne v hb⟩

/-- The snapshot lists the cells by their index. -/
theorem State.snapshot_getElem? (s : State) (a : CellIndex) : s.snapshot[a.val]? = some (s.memRead a) := by
  rw [State.snapshot, Vector.getElem?_ofFn, dif_pos a.isLt]

/-- Settles O50: the snapshot and the host's single read are the block's own read of the cell. -/
theorem snapshotHoldsEveryCell : Obligations.SnapshotHoldsEveryCell := fun s a =>
  ⟨s.snapshot_getElem? a, rfl⟩

end Sys2Proof.Machine

namespace Sys2Proof

/-! ### The decoder's fields and the dispatcher (30_encoding.md R72, R77) -/

/-- A slice of a word is a shift and then a mask of as many ones as the slice is wide. -/
theorem extractLsb'_toNat_eq_shift_and (w : Word) (start len : Nat) :
    (w.extractLsb' start len).toNat = (w.toNat >>> start) &&& (2 ^ len - 1) := by
  rw [BitVec.extractLsb'_toNat, Nat.and_two_pow_sub_one_eq_mod]

/-- Settles O3: each field is a slice, and its mask in the rule is `2 ^ width - 1`. -/
theorem decoderFieldsAreShiftsAndMasks : Obligations.DecoderFieldsAreShiftsAndMasks := fun w =>
  ⟨extractLsb'_toNat_eq_shift_and w 24 8, extractLsb'_toNat_eq_shift_and w 20 5,
    extractLsb'_toNat_eq_shift_and w 0 20⟩

/-- A word with an opcode of the table decodes to that opcode's instruction, with the word's own fields. -/
theorem decode_of_opcode {w : Word} {m : Mnemonic} (h : (opcodeField w).toNat = (opcodeOf m).toNat) :
    decode w = .ok (.ofFields m (regField w) (operandField w)) := by
  have hop : opcodeField w = opcodeOf m := BitVec.eq_of_toNat_eq h
  rw [decode, hop, dispatch_opcodeOf]

theorem decode_of_unlisted {w : Word} (h : ∀ m, (opcodeField w).toNat ≠ (opcodeOf m).toNat) :
    decode w = .error (.unknownOpcode (opcodeField w)) :=
  decode_eq_error.mpr ⟨rfl, fun m hop => h m (congrArg BitVec.toNat hop)⟩

/-- Settles O7: one case for each opcode of the table, and the rest. -/
theorem dispatchComparesWholeOpcode : Obligations.DispatchComparesWholeOpcode := by
  intro w
  split_ifs with h13 h11 h21 h31
  · exact decode_of_opcode (m := .loadConstant) h13
  · exact decode_of_opcode (m := .loadMemory) h11
  · exact decode_of_opcode (m := .storeToMemory) h21
  · exact decode_of_opcode (m := .unaryMinus) h31
  · refine decode_of_unlisted fun m => ?_
    cases m with
    | loadConstant => exact h13
    | loadMemory => exact h11
    | storeToMemory => exact h21
    | unaryMinus => exact h31

/-! ### The packing rule (30_encoding.md R82) -/

/-- Widening to a word and shifting loses no bit where the shifted field still fits the word. -/
theorem setWidth_shiftLeft_toNat {k : Nat} (x : BitVec k) (n : Nat) (h : k + n ≤ 32) :
    (x.setWidth 32 <<< n).toNat = x.toNat <<< n := by
  have hx : x.toNat < 2 ^ k := x.isLt
  have hfit : x.toNat <<< n < 2 ^ 32 :=
    (Nat.shiftLeft_lt hx).trans_le (Nat.pow_le_pow_right (by decide) h)
  rw [BitVec.toNat_shiftLeft, BitVec.toNat_setWidth_of_le (by omega), Nat.mod_eq_of_lt hfit]

theorem pack_toNat (op : Opcode) (r : RegIndex) (a : Operand) :
    (pack op r a).toNat = (op.toNat <<< 24) ||| (r.toNat <<< 20) ||| a.toNat := by
  rw [pack, BitVec.toNat_or, BitVec.toNat_or, setWidth_shiftLeft_toNat op 24 (by decide),
    setWidth_shiftLeft_toNat r 20 (by decide), BitVec.toNat_setWidth_of_le (by decide)]

/-- Settles O4: no field of the three is cut off by the width of the word. -/
theorem packIsShiftAndOr : Obligations.PackIsShiftAndOr :=
  ⟨pack_toNat, fun _ => rfl⟩

/-- Operands in range are packed as the numbers they are: the 5-bit and the 20-bit field lose nothing. -/
theorem pack_ofInt (op : Opcode) {r a : Nat} (hr : r < 32) (ha : a < 1048576) :
    pack op (BitVec.ofInt 5 r) (BitVec.ofInt 20 a) =
      BitVec.ofNat 32 ((op.toNat <<< 24) ||| (r <<< 20) ||| a) := by
  have hreg : (BitVec.ofInt 5 r).toNat = r := by
    rw [BitVec.ofInt_natCast, BitVec.toNat_ofNat, Nat.mod_eq_of_lt hr]
  have hopnd : (BitVec.ofInt 20 a).toNat = a := by
    rw [BitVec.ofInt_natCast, BitVec.toNat_ofNat, Nat.mod_eq_of_lt ha]
  calc pack op (BitVec.ofInt 5 r) (BitVec.ofInt 20 a)
      = BitVec.ofNat 32 (pack op (BitVec.ofInt 5 r) (BitVec.ofInt 20 a)).toNat := by
        rw [BitVec.ofNat_toNat, BitVec.setWidth_eq]
    _ = _ := by rw [pack_toNat, hreg, hopnd]

end Sys2Proof

namespace Sys2Proof.Machine

/-! ### A line with numeric operands (30_encoding.md R91 to R93) -/

section RangeChecks
variable {line b1 b2 : Nat} {v1 v2 : Int} {w : Word}

theorem checkRanges_of_inRange (h1 : 0 ≤ v1 ∧ v1 < b1) (h2 : 0 ≤ v2 ∧ v2 < b2) :
    checkRanges line v1 b1 v2 b2 w = .ok w :=
  checkRanges_eq_ok.mpr ⟨h1, h2, rfl⟩

/-- The first operand's range is checked first, so its error does not depend on the second operand (R91). -/
theorem checkRanges_of_first_out (h1 : ¬ (0 ≤ v1 ∧ v1 < b1)) :
    checkRanges line v1 b1 v2 b2 w = .error (.outOfRange line v1) := by
  rw [checkRanges, if_neg h1]

theorem checkRanges_of_second_out (h1 : 0 ≤ v1 ∧ v1 < b1) (h2 : ¬ (0 ≤ v2 ∧ v2 < b2)) :
    checkRanges line v1 b1 v2 b2 w = .error (.outOfRange line v2) := by
  rw [checkRanges, if_pos h1, if_neg h2]

end RangeChecks

/-- A natural number below a bound passes the range check for that bound. -/
theorem natCast_inRange {v b : Nat} (h : v < b) : 0 ≤ (v : Int) ∧ (v : Int) < b :=
  ⟨Int.natCast_nonneg v, Int.ofNat_lt.mpr h⟩

/-- Settles O52: the three answers are those of the range checks, at the bounds 65536 and 32. -/
theorem loadConstantLineAssembles : Obligations.LoadConstantLineAssembles := by
  refine fun line value reg => ⟨?_, checkRanges_of_first_out, checkRanges_of_second_out⟩
  rintro v r rfl rfl hv hr
  calc assembleOperands line .loadConstant v r
      = .ok (pack (opcodeOf .loadConstant) (BitVec.ofInt 5 r) (BitVec.ofInt 20 v)) :=
        checkRanges_of_inRange (natCast_inRange hv) (natCast_inRange hr)
    _ = _ := by rw [pack_ofInt _ hr (by omega)]; rfl

theorem assembleOperands_of_memory {m : Mnemonic} (hm : m ≠ .loadConstant) (line : Nat) (reg address : Int) :
    assembleOperands line m reg address =
      checkRanges line reg Config.nreg address Config.addressBound
        (pack (opcodeOf m) (BitVec.ofInt 5 reg) (BitVec.ofInt 20 address)) := by
  cases m with
  | loadConstant => exact absurd rfl hm
  | loadMemory | storeToMemory | unaryMinus => rfl

/-- Each row of R93's table is a memory mnemonic with its own opcode. -/
theorem memory_row {m : Mnemonic} {op : Nat}
    (h : (m, op) ∈ [(Mnemonic.loadMemory, 11), (.storeToMemory, 21), (.unaryMinus, 31)]) :
    m ≠ .loadConstant ∧ op = (opcodeOf m).toNat := by
  simp only [List.mem_cons, Prod.mk.injEq, List.not_mem_nil, or_false] at h
  obtain ⟨rfl, rfl⟩ | ⟨rfl, rfl⟩ | ⟨rfl, rfl⟩ := h <;> decide

/-- Settles O53: the three answers are those of the range checks, at the bounds 32 and 2^20. -/
theorem memoryLineAssembles : Obligations.MemoryLineAssembles := by
  intro line op m reg address hrow
  obtain ⟨hm, rfl⟩ := memory_row hrow
  rw [assembleOperands_of_memory hm]
  refine ⟨?_, checkRanges_of_first_out, checkRanges_of_second_out⟩
  rintro r a rfl rfl hr ha
  rw [checkRanges_of_inRange (natCast_inRange hr) (natCast_inRange ha), pack_ofInt _ hr ha]

/-! ### The lines of a source text (30_encoding.md R95) -/

section Lines
variable {marker : Char} {n : Nat} {l : Text} {ls : List Text} {e : AsmError}

theorem assembleLines_of_line_error (h : assembleLine marker n l = .error e) :
    assembleLines marker n (l :: ls) = .error e := by
  rw [assembleLines, h]

/-- An error in a later line is the answer, whatever the line before it gave: its word is not returned. -/
theorem assembleLines_of_rest_error {r : Option Word} (h : assembleLine marker n l = .ok r)
    (hrest : assembleLines marker (n + 1) ls = .error e) : assembleLines marker n (l :: ls) = .error e := by
  cases r with
  | none => rw [assembleLines, h]; exact hrest
  | some w => rw [assembleLines, h]; simp only [hrest]

/-- Lines that assemble begin with a line that does, and the lines after it assemble too. -/
theorem assembleLines_cons_ok {a : Assembly} (h : assembleLines marker n (l :: ls) = .ok a) :
    (∃ r, assembleLine marker n l = .ok r) ∧ ∃ b, assembleLines marker (n + 1) ls = .ok b := by
  cases hl : assembleLine marker n l with
  | error e => rw [assembleLines_of_line_error hl] at h; cases h
  | ok r =>
    refine ⟨⟨r, rfl⟩, ?_⟩
    cases hls : assembleLines marker (n + 1) ls with
    | error e => rw [assembleLines_of_rest_error hl hls] at h; cases h
    | ok b => exact ⟨b, rfl⟩

end Lines

/-- Settles O56, by induction on the lines before the failing one: each hands on the error of the lines after it. -/
theorem assemblyStopsAtFirstError : Obligations.AssemblyStopsAtFirstError := by
  intro marker n before after l a e hbefore hl
  induction before generalizing n a with
  | nil => exact assembleLines_of_line_error hl
  | cons b before ih =>
    obtain ⟨⟨r, hb⟩, c, hrest⟩ := assembleLines_cons_ok hbefore
    have hl' : assembleLine marker (n + 1 + before.length) l = .error e := by
      rwa [Nat.add_assoc, Nat.add_comm 1, ← List.length_cons]
    exact assembleLines_of_rest_error hb (ih (n + 1) c hrest hl')

end Sys2Proof.Machine

namespace Sys2Proof.Machine

/-! ### Data movement (40_data_movement.md) -/

/-- The immediate is zero-extended: it is the same number as the operand (R74). -/
@[simp] theorem immediate_toNat (operand : Operand) : (immediate operand).toNat = operand.toNat :=
  BitVec.toNat_setWidth_of_le (by decide)

section Exec
variable (reg : RegIndex) {operand : Operand} {a : CellIndex} (s : State)

theorem exec_loadConstant (operand : Operand) :
    exec (.loadConstant reg operand) s =
      .next ((s.writeReg reg (immediate operand)).retire .loadConstant (.lc reg (immediate operand))) :=
  rfl

theorem exec_loadMemory_of_valid (h : validate operand = some a) :
    exec (.loadMemory reg operand) s =
      .next ((s.writeReg reg (s.memRead a)).retire .loadMemory (.lm reg a (s.memRead a))) :=
  withCell_some h

theorem exec_storeToMemory_of_valid (h : validate operand = some a) :
    exec (.storeToMemory reg operand) s =
      .next ((s.memWrite a (s.readReg reg)).retire .storeToMemory (.st reg a (s.readReg reg))) :=
  withCell_some h

end Exec

/-- The fault half of a memory instruction's result, whichever of the three it is (R53, R152). -/
theorem exec_faultTaken_of_outOfRange {i : Instr} (s : State) (hm : i.mnemonic ≠ .loadConstant)
    (h : validate i.operand = none) :
    ∃ t, exec i s = .next t ∧ FaultTaken .addressOutOfRange (encode i) s t :=
  ⟨_, exec_of_outOfRange s hm h, .of_takeFault ..⟩

/-- What completing after a register write does to the registers and the cells: the two instructions that load. -/
theorem writeReg_retire_frame (s : State) (r : RegIndex) (v : Value) (m : Mnemonic) (e : Effect) :
    ((s.writeReg r v).retire m e).readReg r = v ∧
      (∀ q, q ≠ r → ((s.writeReg r v).retire m e).readReg q = s.readReg q) ∧
      ∀ a, ((s.writeReg r v).retire m e).memRead a = s.memRead a :=
  ⟨s.writeReg_readReg_same r v, fun _ hq => s.writeReg_readReg_of_ne v hq, s.writeReg_memRead r v⟩

/-- What completing after a cell write does to the cells and the registers: the two instructions that write memory. -/
theorem memWrite_retire_frame (s : State) (a : CellIndex) (v : Value) (m : Mnemonic) (e : Effect) :
    ((s.memWrite a v).retire m e).memRead a = v ∧
      (∀ b, b ≠ a → ((s.memWrite a v).retire m e).memRead b = s.memRead b) ∧
      ∀ q, ((s.memWrite a v).retire m e).readReg q = s.readReg q :=
  ⟨s.memWrite_memRead_same a v, fun _ hb => s.memWrite_memRead_of_ne v hb, s.memWrite_readReg a v⟩

/-- Settles O18: the event names the value that the register then reads as, which is the operand's number. -/
theorem loadConstantResult : Obligations.LoadConstantResult := by
  refine ⟨fun w hop => decode_of_opcode (m := .loadConstant) (congrArg BitVec.toNat hop),
    fun reg operand s => ⟨_, exec_loadConstant reg s operand, ?_⟩⟩
  obtain ⟨hreg, hregs, hcells⟩ :=
    writeReg_retire_frame s reg (immediate operand) .loadConstant (.lc reg (immediate operand))
  rw [hreg]
  exact ⟨immediate_toNat operand, hregs, hcells, .of_writeReg ..⟩

/-- Settles O19: the validator decides between the completed load and the fault. -/
theorem loadMemoryResult : Obligations.LoadMemoryResult := by
  refine ⟨fun w hop => decode_of_opcode (m := .loadMemory) (congrArg BitVec.toNat hop),
    fun reg operand s => ⟨fun a ha => ⟨_, exec_loadMemory_of_valid reg s ha, ?_⟩,
      exec_faultTaken_of_outOfRange (i := .loadMemory reg operand) s (by simp [Instr.mnemonic])⟩⟩
  obtain ⟨hreg, hregs, hcells⟩ :=
    writeReg_retire_frame s reg (s.memRead a) .loadMemory (.lm reg a (s.memRead a))
  exact ⟨hreg, hregs, hcells, .of_writeReg ..⟩

/-- Settles O20: the validator decides between the completed store and the fault. -/
theorem storeToMemoryResult : Obligations.StoreToMemoryResult := by
  refine ⟨fun w hop => decode_of_opcode (m := .storeToMemory) (congrArg BitVec.toNat hop),
    fun reg operand s => ⟨fun a ha => ⟨_, exec_storeToMemory_of_valid reg s ha, ?_⟩,
      exec_faultTaken_of_outOfRange (i := .storeToMemory reg operand) s (by simp [Instr.mnemonic])⟩⟩
  obtain ⟨hcell, hcells, hregs⟩ :=
    memWrite_retire_frame s a (s.readReg reg) .storeToMemory (.st reg a (s.readReg reg))
  exact ⟨hcell, hcells, hregs, .of_memWrite ..⟩

end Sys2Proof.Machine

namespace Sys2Proof.Machine

/-! ### Arithmetic (41_arithmetic.md) -/

theorem exec_unaryMinus_of_valid (reg : RegIndex) {operand : Operand} {a : CellIndex} (s : State)
    (h : validate operand = some a) :
    exec (.unaryMinus reg operand) s =
      .next ((s.memWrite a (negate (s.memRead a))).retire .unaryMinus
        (.neg a (s.memRead a) (negate (s.memRead a)))) :=
  withCell_some h

/-- Settles O21: the validator decides between the completed negation and the fault, and the event's new value is what
the cell then reads as. -/
theorem unaryMinusResult : Obligations.UnaryMinusResult := by
  refine ⟨fun w hop => decode_of_opcode (m := .unaryMinus) (congrArg BitVec.toNat hop),
    fun reg operand s => ⟨fun a ha => ⟨_, exec_unaryMinus_of_valid reg s ha, ?_⟩,
      exec_faultTaken_of_outOfRange (i := .unaryMinus reg operand) s (by simp [Instr.mnemonic])⟩⟩
  obtain ⟨hcell, hcells, hregs⟩ :=
    memWrite_retire_frame s a (negate (s.memRead a)) .unaryMinus (.neg a (s.memRead a) (negate (s.memRead a)))
  rw [hcell]
  exact ⟨rfl, hcells, hregs, .of_memWrite ..⟩

end Sys2Proof.Machine

namespace Sys2Proof

/-! ### Decoding loses no bit of a word (30_encoding.md R72, R82) -/

/-- The register field's top bit and the opcode's bit 0 are the same bit of the word, so packing them back agrees. -/
theorem pack_fields (w : Word) : pack (opcodeField w) (regField w) (operandField w) = w := by
  apply BitVec.eq_of_getLsbD_eq
  intro n hn
  rw [pack_getLsbD _ _ _ _ hn]
  simp only [opcodeField, regField, operandField, BitVec.getLsbD_extractLsb', Nat.zero_add]
  rcases Nat.lt_or_ge n 20 with h20 | h20
  · simp [h20, show ¬ 24 ≤ n by omega]
  · have hreg : 20 + (n - 20) = n := by omega
    rcases Nat.lt_or_ge n 24 with h24 | h24
    · simp [hreg, h20, show ¬ n < 20 by omega, show ¬ 24 ≤ n by omega, show n - 20 < 5 by omega]
    · have hop : 24 + (n - 24) = n := by omega
      simp [hreg, hop, h20, h24, show ¬ n < 20 by omega, show n - 24 < 8 by omega]

/-- The word of a decoded instruction is the word it was decoded from. -/
theorem encode_of_decode {w : Word} {i : Instr} (h : decode w = .ok i) : encode i = w := by
  obtain ⟨hop, hreg, hoperand⟩ := decode_eq_ok.mp h
  rw [encode, ← hop, ← hreg, ← hoperand, pack_fields]

end Sys2Proof

namespace Sys2Proof.Machine

/-! ### The halt (60_exceptions.md R163, R164) -/

/-- Settles O24: the end of the sequence is an update of STATUS alone. -/
theorem endOfSequenceSetsDone : Obligations.EndOfSequenceSetsDone := fun s hrun hpc =>
  ⟨s.endOfSequence, step_of_end hrun hpc, s.endOfSequence_status, s.endOfSequence_readReg, s.endOfSequence_memRead,
    s.endOfSequence_pc, s.endOfSequence_fcause, s.endOfSequence_findex, s.endOfSequence_fword,
    s.endOfSequence_trace, s.endOfSequence_program⟩

theorem steps_of_halted {s : State} (h : s.status ≠ .run) (n : Nat) : steps n s = .next s := by
  induction n with
  | zero => rfl
  | succ n ih => rw [steps, step_of_halted h]; exact ih

theorem runWithin_of_halted {s : State} (h : s.status ≠ .run) (n : Nat) : runWithin n s = .next s := by
  cases n with
  | zero => rfl
  | succ n => rw [runWithin, if_neg h]

theorem runWithin_succ_of_step {s t : State} (n : Nat) (hrun : s.status = .run) (h : step s = .next t) :
    runWithin (n + 1) s = runWithin n t := by
  rw [runWithin, if_pos hrun, h]

/-- Settles O25: a halted block steps to itself, and a run does not even step it. -/
theorem haltIsFinal : Obligations.HaltIsFinal := fun _ h =>
  ⟨steps_of_halted h, runWithin_of_halted h _⟩

/-! ### Which words fault (60_exceptions.md R150 to R152) -/

/-- The unlisted opcodes are the words that do not decode (R80, R151). -/
theorem faultsWith_unknownOpcode_iff {w : Word} :
    FaultsWith w .unknownOpcode ↔ ∀ m, opcodeField w ≠ opcodeOf m := by
  constructor
  · rintro ⟨h13, h11, h21, h31⟩ m
    cases m with
    | loadConstant => exact h13
    | loadMemory => exact h11
    | storeToMemory => exact h21
    | unaryMinus => exact h31
  · exact fun h => ⟨h .loadConstant, h .loadMemory, h .storeToMemory, h .unaryMinus⟩

/-- A word that decodes faults in its address exactly where its instruction is a memory instruction whose operand the
validator rejects (R53, R152). -/
theorem faultsWith_addressOutOfRange_iff {w : Word} {i : Instr} (h : decode w = .ok i) :
    FaultsWith w .addressOutOfRange ↔ i.mnemonic ≠ .loadConstant ∧ validate i.operand = none := by
  obtain ⟨hop, -, hoperand⟩ := decode_eq_ok.mp h
  have hmemory : (opcodeField w = 11 ∨ opcodeField w = 21 ∨ opcodeField w = 31) ↔ i.mnemonic ≠ .loadConstant := by
    rw [hop]
    cases i.mnemonic <;> decide
  rw [FaultsWith, hmemory, hoperand, validate_eq_none]

/-- No word has both faults: an address is validated only under a listed opcode (R154). -/
theorem FaultsWith.not_addressOutOfRange {w : Word} (h : FaultsWith w .unknownOpcode) :
    ¬ FaultsWith w .addressOutOfRange := by
  obtain ⟨-, h11, h21, h31⟩ := h
  rintro ⟨hop | hop | hop, -⟩
  · exact h11 hop
  · exact h21 hop
  · exact h31 hop

theorem FaultsWith.cause_unique {w : Word} {c d : FaultCause} (hc : FaultsWith w c) (hd : FaultsWith w d) :
    c = d := by
  cases c with
  | none => exact hc.elim
  | unknownOpcode =>
    cases d with
    | none => exact hd.elim
    | unknownOpcode => rfl
    | addressOutOfRange => exact absurd hd hc.not_addressOutOfRange
  | addressOutOfRange =>
    cases d with
    | none => exact hd.elim
    | unknownOpcode => exact absurd hc hd.not_addressOutOfRange
    | addressOutOfRange => rfl

/-- `LOAD_CONSTANT` never faults, whatever its operand is (R120). -/
theorem not_faultsWith_of_loadConstant {w : Word} (h : opcodeField w = opcodeOf .loadConstant) (c : FaultCause) :
    ¬ FaultsWith w c := by
  have hd : decode w = .ok (.loadConstant (regField w) (operandField w)) := decode_eq_ok.mpr ⟨h, rfl, rfl⟩
  cases c with
  | none => exact id
  | unknownOpcode => exact fun hf => faultsWith_unknownOpcode_iff.mp hf .loadConstant h
  | addressOutOfRange => exact fun hf => ((faultsWith_addressOutOfRange_iff hd).mp hf).1 rfl

/-! ### What the step makes of the word it fetches (60_exceptions.md R153, R155) -/

/-- An instruction that takes no fault completes with one retire event. -/
theorem ExecResult.retired {s t : State} {i : Instr} (h : ExecResult s i t)
    (hvalid : ¬ (i.mnemonic ≠ .loadConstant ∧ validate i.operand = none)) : ∃ m e, Retired m e s t := by
  cases h with
  | loadConstant | loadMemory => exact ⟨_, _, .of_writeReg ..⟩
  | storeToMemory | unaryMinus => exact ⟨_, _, .of_memWrite ..⟩
  | outOfRange _ hm hnone => exact absurd ⟨hm, hnone⟩ hvalid

/-- Running the word `w` takes the fault that `w` has, or completes where it has none. -/
inductive WordResult (w : Word) (s : State) : State → Prop where
  | faulted (c : FaultCause) (h : FaultsWith w c) : WordResult w s (s.takeFault c w)
  | retired (h : ∀ c, ¬ FaultsWith w c) (m : Mnemonic) (e : Effect) (t : State) (ht : Retired m e s t) :
      WordResult w s t

/-- Whether the word faults is settled by the word alone: the decoder first, and then the validator. -/
theorem step_wordResult {s : State} {w : Word} (hrun : s.status = .run) (hw : s.program[s.pc]? = some w) :
    ∃ t, step s = .next t ∧ WordResult w s t := by
  cases hd : decode w with
  | error e =>
    obtain ⟨-, hop⟩ := decode_eq_error.mp hd
    exact ⟨_, step_of_unknown hrun hw hd, .faulted _ (faultsWith_unknownOpcode_iff.mpr hop)⟩
  | ok i =>
    have haddr := faultsWith_addressOutOfRange_iff hd
    by_cases hrejected : i.mnemonic ≠ .loadConstant ∧ validate i.operand = none
    · obtain ⟨hm, hnone⟩ := hrejected
      have hstep : step s = .next (s.takeFault .addressOutOfRange w) := by
        rw [step_of_decode hrun hw hd, exec_of_outOfRange s hm hnone, encode_of_decode hd]
      exact ⟨_, hstep, .faulted _ (haddr.mpr ⟨hm, hnone⟩)⟩
    · obtain ⟨t, ht, hr⟩ := exec_result i s
      obtain ⟨m, e, hretired⟩ := hr.retired hrejected
      have hclean : ∀ c, ¬ FaultsWith w c
        | .none => id
        | .unknownOpcode => fun hf => faultsWith_unknownOpcode_iff.mp hf _ (decode_eq_ok.mp hd).1
        | .addressOutOfRange => fun hf => hrejected (haddr.mp hf)
      exact ⟨t, (step_of_decode hrun hw hd).trans ht, .retired hclean m e t hretired⟩

theorem step_of_faultsWith {s : State} {w : Word} {c : FaultCause} (hrun : s.status = .run)
    (hw : s.program[s.pc]? = some w) (hf : FaultsWith w c) : step s = .next (s.takeFault c w) := by
  obtain ⟨t, ht, hr⟩ := step_wordResult hrun hw
  cases hr with
  | faulted d hd => rw [hf.cause_unique hd]; exact ht
  | retired hclean => exact absurd hf (hclean c)

/-- A step that enters FAULT takes the fault of the word it fetched: no other step sets STATUS to FAULT. -/
theorem step_entering_fault {s t : State} (h : step s = .next t) (hs : s.status ≠ .fault) (ht : t.status = .fault) :
    ∃ w c, s.program[s.pc]? = some w ∧ FaultsWith w c ∧ t = s.takeFault c w := by
  obtain ⟨hrun, w, hw⟩ : s.status = .run ∧ ∃ w, s.program[s.pc]? = some w := by
    cases step_cases h with
    | halted => exact absurd ht hs
    | endOfSequence => cases ht
    | unknownOpcode hrun w hw => exact ⟨hrun, w, hw⟩
    | instruction hrun w hw => exact ⟨hrun, w, hw⟩
  obtain ⟨u, hu, hr⟩ := step_wordResult hrun hw
  obtain rfl := Host.Outcome.next.inj (hu.symm.trans h)
  cases hr with
  | faulted c hf => exact ⟨w, c, hw, hf, rfl⟩
  | retired _ _ _ _ hretired => exact absurd (hretired.record.status.symm.trans ht) hs

/-- Settles O28: taking a fault writes the four record registers and nothing else. -/
theorem faultsArePrecise : Obligations.FaultsArePrecise := by
  intro s t h hs ht
  obtain ⟨w, c, hw, hf, rfl⟩ := step_entering_fault h hs ht
  exact ⟨.of_takeFault s c w, hw, hf⟩

/-- Settles O26: the word has the fault of an unlisted opcode. -/
theorem unknownOpcodeTaken : Obligations.UnknownOpcodeTaken := by
  intro s w hrun hw hop
  have hf : FaultsWith w .unknownOpcode := by
    refine faultsWith_unknownOpcode_iff.mpr fun m hm => hop ?_
    rw [hm]
    cases m <;> decide
  exact ⟨_, step_of_faultsWith hrun hw hf, .of_takeFault s _ w, rfl, rfl⟩

/-- Settles O27: the word has the fault of a far address, and a `LOAD_CONSTANT` has none. -/
theorem addressOutOfRangeTaken : Obligations.AddressOutOfRangeTaken := by
  refine ⟨fun s w hrun hw hop hfar => ?_, fun s w hrun hw hop => ?_⟩
  · have hf : FaultsWith w .addressOutOfRange := by
      refine ⟨?_, hfar⟩
      simpa [← BitVec.toNat_inj] using hop
    exact ⟨_, step_of_faultsWith hrun hw hf, .of_takeFault s _ w, rfl, rfl⟩
  · obtain ⟨t, ht, hr⟩ := step_wordResult hrun hw
    cases hr with
    | faulted c hf => exact absurd hf (not_faultsWith_of_loadConstant (BitVec.eq_of_toNat_eq hop) c)
    | retired _ _ _ _ hretired => exact ⟨t, ht, hretired.record⟩

/-! ### The outcome of a run (60_exceptions.md R168) -/

/-- A run of the program `P` that goes on: every word before `pc` executed, without a fault and with one event. -/
structure ExecutedUpToPc (P : List Word) (s : State) : Prop where
  running : s.status = .run
  program : s.program = P
  pc_le : s.pc ≤ P.length
  events : s.trace.length = s.pc
  clean : ∀ (n : Nat) (w : Word), n < s.pc → P[n]? = some w → ∀ c, ¬ FaultsWith w c

theorem ExecutedUpToPc.of_resetWith (P : List Word) : ExecutedUpToPc P (State.resetWith P) :=
  ⟨rfl, rfl, Nat.zero_le _, rfl, fun _ _ hn => absurd hn (Nat.not_lt_zero _)⟩

/-- The two outcomes of a run of `P`, as R168 gives them. -/
def RunEnded (P : List Word) (t : State) : Prop :=
  (t.status = .done ∧ t.pc = P.length ∧ t.trace.length = P.length ∧ (∀ w ∈ P, ∀ c, ¬ FaultsWith w c)) ∨
    (t.status = .fault ∧ t.pc = t.findex ∧ t.trace.length = t.findex ∧ P[t.findex]? = some t.fword ∧
      FaultsWith t.fword t.fcause ∧
      (∀ (n : Nat) (w : Word), n < t.findex → P[n]? = some w → ∀ c, ¬ FaultsWith w c))

section Run
variable {P : List Word} {s : State}

theorem ExecutedUpToPc.retired {w : Word} {m : Mnemonic} {e : Effect} {t : State} (h : ExecutedUpToPc P s)
    (hw : P[s.pc]? = some w) (hclean : ∀ c, ¬ FaultsWith w c) (ht : Retired m e s t) : ExecutedUpToPc P t where
  running := ht.record.status.trans h.running
  program := ht.program.trans h.program
  pc_le := by
    obtain ⟨hlt, -⟩ := List.getElem?_eq_some_iff.mp hw
    rw [ht.pc]
    exact hlt
  events := by rw [ht.trace, ht.pc, List.length_append, h.events, List.length_singleton]
  clean n v hn hv := by
    rw [ht.pc] at hn
    rcases Nat.lt_succ_iff_lt_or_eq.mp hn with hlt | rfl
    · exact h.clean n v hlt hv
    · obtain rfl := Option.some.inj (hw.symm.trans hv)
      exact hclean

theorem ExecutedUpToPc.runEnded_endOfSequence (h : ExecutedUpToPc P s) (hpc : s.pc = P.length) :
    RunEnded P s.endOfSequence := by
  refine .inl ⟨rfl, hpc, h.events.trans hpc, fun w hw => ?_⟩
  obtain ⟨n, hlt, hn⟩ := List.mem_iff_getElem.mp hw
  exact h.clean n w (hpc ▸ hlt) (List.getElem?_eq_some_iff.mpr ⟨hlt, hn⟩)

theorem ExecutedUpToPc.runEnded_takeFault {w : Word} {c : FaultCause} (h : ExecutedUpToPc P s)
    (hw : P[s.pc]? = some w) (hf : FaultsWith w c) : RunEnded P (s.takeFault c w) :=
  .inr ⟨rfl, rfl, h.events, hw, hf, h.clean⟩

end Run

/-- With one step for each word left and one for the end, the run comes to one of its two outcomes. -/
theorem runWithin_ends {P : List Word} (n : Nat) : ∀ {s : State}, ExecutedUpToPc P s → P.length < s.pc + n →
    ∃ t, runWithin n s = .next t ∧ RunEnded P t := by
  induction n with
  | zero => exact fun h hfuel => absurd h.pc_le (Nat.not_le.mpr hfuel)
  | succ n ih =>
    intro s h hfuel
    rcases Nat.eq_or_lt_of_le h.pc_le with hpc | hlt
    · refine ⟨s.endOfSequence, ?_, h.runEnded_endOfSequence hpc⟩
      rw [runWithin_succ_of_step n h.running (step_of_end h.running (h.program ▸ hpc)),
        runWithin_of_halted (by simp)]
    · have hw : P[s.pc]? = some P[s.pc] := List.getElem?_eq_getElem hlt
      have hfetched : s.program[s.pc]? = some P[s.pc] := by rw [h.program]; exact hw
      obtain ⟨t, hstep, hr⟩ := step_wordResult h.running hfetched
      rw [runWithin_succ_of_step n h.running hstep]
      cases hr with
      | faulted c hf => exact ⟨_, runWithin_of_halted (by simp) n, h.runEnded_takeFault hw hf⟩
      | retired hclean _ _ _ ht =>
        refine ih (h.retired hw hclean ht) ?_
        rw [ht.pc]
        omega

/-- Settles O47: PROG_LEN + 1 steps are enough from reset, where no word has executed yet. -/
theorem runOutcome : Obligations.RunOutcome := by
  intro P
  obtain ⟨t, ht, hended⟩ := runWithin_ends (P.length + 1) (.of_resetWith P) (by simp)
  exact ⟨t, ht, t.snapshot_getElem?, hended⟩

end Sys2Proof.Machine

namespace Sys2Proof.Machine

/-! ### The end of every run (70_reset_and_hazards.md R189) -/

/-- A run agrees with the bare steps, because a halted block steps to itself (R164). -/
theorem runWithin_eq_steps (n : Nat) : ∀ s : State, runWithin n s = steps n s := by
  induction n with
  | zero => exact fun _ => rfl
  | succ n ih =>
    intro s
    by_cases hrun : s.status = .run
    · rw [runWithin, if_pos hrun, steps]
      simp only [ih]
    · rw [runWithin_of_halted hrun, steps_of_halted hrun]

/-- With one step for each word left and one for the end, the block halts: a step that does not halt it moves `pc` one
word on, and `pc` stays within PROG_LEN. -/
theorem steps_halts (n : Nat) : ∀ {s : State}, s.pc ≤ s.program.length → s.program.length < s.pc + n →
    ∃ t, steps n s = .next t ∧ t.status ≠ .run := by
  induction n with
  | zero => exact fun hpc hfuel => absurd hpc (Nat.not_le.mpr hfuel)
  | succ n ih =>
    intro s hpc hfuel
    obtain ⟨u, hstep, hresult⟩ := step_result hpc
    have hrest : steps (n + 1) s = steps n u := by rw [steps, hstep]
    rw [hrest]
    obtain ⟨-, hlt, m, e, hretired⟩ | hhalts := hresult.retired_or_haltsInPlace
    · apply ih <;> rw [hretired.pc, hretired.program] <;> omega
    · exact ⟨u, steps_of_halted hhalts.halted n, hhalts.halted⟩

/-- Settles O46: the run is PROG_LEN + 1 steps, which are enough wherever in the program it starts. -/
theorem everyRunEnds : Obligations.EveryRunEnds := by
  intro s hpc
  obtain ⟨t, hsteps, hhalted⟩ := steps_halts (s.program.length + 1) hpc (by omega)
  exact ⟨t, (runWithin_eq_steps _ s).trans hsteps, hhalted, _, Nat.le_refl _, hsteps⟩

/-! ### The reset values (70_reset_and_hazards.md R180) -/

section Reset
variable (P : List Word)

@[simp] theorem State.resetWith_hostStatus : (State.resetWith P).hostStatus = 0 := rfl
@[simp] theorem State.resetWith_hostFcause : (State.resetWith P).hostFcause = 0 := rfl

end Reset

/-- Settles O13: each row of the reset table is a law of `State.resetWith`; the host reads RUN and "no fault" as 0. -/
theorem resetValues : Obligations.ResetValues := fun P =>
  ⟨State.resetWith_readReg P, State.resetWith_memRead P, State.resetWith_pc P, State.resetWith_hostStatus P,
    State.resetWith_hostFcause P, State.resetWith_findex P, State.resetWith_fword P, State.resetWith_trace P,
    State.resetWith_program P⟩

end Sys2Proof.Machine

namespace Sys2Proof

/-! ### The register of a recognised word (30_encoding.md R79, R83, R84) -/

theorem wellFormed_iff {i : Instr} : i.wellFormed = true ↔ 16 ≤ i.reg.toNat := by
  rw [Instr.wellFormed, decide_eq_true_iff]

/-- Settles O1: a register of 16 or more already has the bit that packing an odd opcode sets. -/
theorem decodeInvertsEncode : Obligations.DecodeInvertsEncode := by
  intro i hwf
  obtain ⟨hop, hreg, hoperand⟩ := Laws.EncodedFields.of_pack i
  have hhigh : i.reg ||| 16 = i.reg := (or_sixteen_eq_self i.reg).mpr (wellFormed_iff.mp hwf)
  exact decode_eq_ok.mpr ⟨hop, hreg.trans hhigh, hoperand⟩

/-- Bit 24 of a word is bit 0 of its opcode, and every opcode of the table is odd. -/
theorem bit24_of_decode {w : Word} {i : Instr} (h : decode w = .ok i) : w.getLsbD 24 = true := by
  obtain ⟨hop, -, -⟩ := decode_eq_ok.mp h
  have hodd : (opcodeField w).getLsbD 0 = true := hop ▸ opcodeOf_odd i.mnemonic
  simpa [opcodeField] using hodd

/-- The register field's top bit is bit 24 of the word; the four bits below it are bits 23 to 20. -/
theorem regField_toNat_of_bit24 {w : Word} (h : w.getLsbD 24 = true) :
    (regField w).toNat = 16 + (w.extractLsb' 20 4).toNat := by
  have hbit : w.toNat / 2 ^ 24 % 2 = 1 := by
    rw [BitVec.getLsbD, Nat.testBit_eq_decide_div_mod_eq] at h
    exact of_decide_eq_true h
  rw [regField, BitVec.extractLsb'_toNat, BitVec.extractLsb'_toNat, Nat.shiftRight_eq_div_pow]
  omega

/-- Settles O8: the register field takes its top bit from the opcode. -/
theorem recognisedRegisterIsHigh : Obligations.RecognisedRegisterIsHigh := by
  intro w i h
  obtain ⟨-, hreg, -⟩ := decode_eq_ok.mp h
  have hbit := bit24_of_decode h
  exact ⟨hbit, hreg ▸ regField_toNat_of_bit24 hbit⟩

theorem reg_high_of_decode {w : Word} {i : Instr} (h : decode w = .ok i) : 16 ≤ i.reg.toNat := by
  obtain ⟨-, hreg⟩ := recognisedRegisterIsHigh w i h
  omega

/-- Settles O2: the fields of a word hold all of its bits. -/
theorem encodeInvertsDecode : Obligations.EncodeInvertsDecode := fun _ _ h =>
  ⟨wellFormed_iff.mpr (reg_high_of_decode h), encode_of_decode h⟩

/-- Packing an opcode of the table sets bit 4 of the register, so the register may as well have it set before. -/
theorem pack_or_sixteen (m : Mnemonic) (r : RegIndex) (a : Operand) :
    pack (opcodeOf m) (r ||| 16) a = pack (opcodeOf m) r a := by
  have hfields := pack_fields (pack (opcodeOf m) r a)
  rwa [opcodeField_pack _ _ _ (opcodeOf_odd m), regField_pack _ _ _ (opcodeOf_odd m), operandField_pack] at hfields

/-- A register index below 16 and the one 16 above it differ in bit 4 alone. -/
theorem ofNat_or_sixteen {r : Nat} (hr : r < 16) : BitVec.ofNat 5 r ||| 16 = BitVec.ofNat 5 (r + 16) := by
  have hall : ∀ r : Fin 16, BitVec.ofNat 5 r.val ||| 16 = BitVec.ofNat 5 (r.val + 16) := by decide
  exact hall ⟨r, hr⟩

/-- Settles O6: both registers give the word whose register has bit 4 set. -/
theorem lowRegisterAliasesHigh : Obligations.LowRegisterAliasesHigh := by
  intro m r a hr
  refine ⟨?_, ?_⟩
  · rw [← ofNat_or_sixteen hr, pack_or_sixteen]
  · rw [regField_pack _ _ _ (opcodeOf_odd m), ofNat_or_sixteen hr, BitVec.toNat_ofNat]
    omega

/-- The four numbers of the opcode table (R77). -/
theorem eq_opcodeOf_toNat_of_mem {op : Nat} (h : op ∈ [11, 13, 21, 31]) : ∃ m, op = (opcodeOf m).toNat := by
  simp only [List.mem_cons, List.not_mem_nil, or_false] at h
  obtain rfl | rfl | rfl | rfl := h
  · exact ⟨.loadMemory, rfl⟩
  · exact ⟨.loadConstant, rfl⟩
  · exact ⟨.storeToMemory, rfl⟩
  · exact ⟨.unaryMinus, rfl⟩

/-- Settles O5: the word is the packed word of three fields that hold `op`, `r` and `a` as they are. -/
theorem packedWordRoundTrip : Obligations.PackedWordRoundTrip := by
  intro op r a hop hr ha w
  obtain ⟨m, rfl⟩ := eq_opcodeOf_toNat_of_mem hop
  have hw : w = pack (opcodeOf m) (BitVec.ofInt 5 r) (BitVec.ofInt 20 a) := (pack_ofInt _ hr ha).symm
  have hregNat : (BitVec.ofInt 5 r).toNat = r := by
    rw [BitVec.ofInt_natCast, BitVec.toNat_ofNat, Nat.mod_eq_of_lt hr]
  have hreg : regField w = BitVec.ofInt 5 r ||| 16 := by rw [hw, regField_pack _ _ _ (opcodeOf_odd m)]
  refine ⟨?_, ?_, ?_, ?_⟩
  · rw [hw, opcodeField_pack _ _ _ (opcodeOf_odd m)]
  · rw [hreg, BitVec.toNat_or, hregNat]; rfl
  · rw [hw, operandField_pack, BitVec.ofInt_natCast, BitVec.toNat_ofNat, Nat.mod_eq_of_lt ha]
  · calc (regField w).toNat = r
        ↔ (BitVec.ofInt 5 r ||| 16).toNat = (BitVec.ofInt 5 r).toNat := by rw [hreg, hregNat]
      _ ↔ BitVec.ofInt 5 r ||| 16 = BitVec.ofInt 5 r := BitVec.toNat_inj
      _ ↔ 16 ≤ r := by rw [or_sixteen_eq_self, hregNat]

/-- Settles O9, by running the decoder on each word. -/
theorem tableWordsDecode : Obligations.TableWordsDecode :=
  ⟨by decide, by decide, by decide, by decide, by decide⟩

/-! ### The program image (20_memory.md R56) -/

theorem wordOfBytes_bytesOfWord (w : Word) :
    wordOfBytes (w.extractLsb' 24 8) (w.extractLsb' 16 8) (w.extractLsb' 8 8) (w.extractLsb' 0 8) = w := by
  rw [wordOfBytes, BitVec.extractLsb'_append_extractLsb'_eq_extractLsb' (by rfl),
    BitVec.extractLsb'_append_extractLsb'_eq_extractLsb' (by rfl),
    BitVec.extractLsb'_append_extractLsb'_eq_extractLsb' (by rfl)]
  exact BitVec.extractLsb'_eq_self

theorem wordsOfImage_bytesOfWord_append (w : Word) (bs : List Byte) :
    wordsOfImage (bytesOfWord w ++ bs) = (wordsOfImage bs).map (w :: ·) := by
  rw [bytesOfWord, List.cons_append, List.cons_append, List.cons_append, List.cons_append, List.nil_append,
    wordsOfImage, wordOfBytes_bytesOfWord]

theorem wordsOfImage_imageOf (P : List Word) : wordsOfImage (imageOf P) = some P := by
  induction P with
  | nil => rfl
  | cons w P ih =>
    calc wordsOfImage (imageOf (w :: P))
        = wordsOfImage (bytesOfWord w ++ imageOf P) := rfl
      _ = some (w :: P) := by rw [wordsOfImage_bytesOfWord_append, ih, Option.map_some]

theorem loadImage_eq_ok {bs : List Byte} {P : List Word} : loadImage bs = .ok P ↔ wordsOfImage bs = some P := by
  unfold loadImage
  cases wordsOfImage bs <;> simp

/-- An image gives no words exactly when it has no bytes. -/
theorem wordsOfImage_eq_some_nil {bs : List Byte} : wordsOfImage bs = some [] ↔ bs = [] := by
  match bs with
  | [] => simp [wordsOfImage]
  | [_] | [_, _] | [_, _, _] => simp [wordsOfImage]
  | _ :: _ :: _ :: _ :: _ => simp [wordsOfImage]

/-- The first word of an image is that of its first four bytes. -/
theorem wordsOfImage_eq_some_cons {bs : List Byte} {w : Word} {P : List Word} (h : wordsOfImage bs = some (w :: P)) :
    ∃ b0 b1 b2 b3 rest, bs = b0 :: b1 :: b2 :: b3 :: rest ∧ w = wordOfBytes b0 b1 b2 b3 ∧
      wordsOfImage rest = some P := by
  match bs with
  | [] => simp [wordsOfImage] at h
  | [_] | [_, _] | [_, _, _] => simp [wordsOfImage] at h
  | b0 :: b1 :: b2 :: b3 :: rest =>
    obtain ⟨Q, hQ, hcons⟩ := Option.map_eq_some_iff.mp h
    obtain ⟨rfl, rfl⟩ := List.cons.inj hcons
    exact ⟨b0, b1, b2, b3, rest, rfl, rfl, hQ⟩

theorem length_of_wordsOfImage {bs : List Byte} {P : List Word} (h : wordsOfImage bs = some P) :
    bs.length = 4 * P.length := by
  induction P generalizing bs with
  | nil => obtain rfl := wordsOfImage_eq_some_nil.mp h; rfl
  | cons w P ih =>
    obtain ⟨b0, b1, b2, b3, rest, rfl, -, hrest⟩ := wordsOfImage_eq_some_cons h
    have hlen := ih hrest
    simp only [List.length_cons]
    omega

/-- Settles O10: cutting an image four bytes at a time gives the words it was made of. -/
theorem imageRoundTrip : Obligations.ImageRoundTrip := fun P =>
  ⟨loadImage_eq_ok.mpr (wordsOfImage_imageOf P), length_of_wordsOfImage (wordsOfImage_imageOf P)⟩

theorem wordOfBytes_toNat (b0 b1 b2 b3 : Byte) :
    (wordOfBytes b0 b1 b2 b3).toNat =
      (b0.toNat <<< 24) ||| (b1.toNat <<< 16) ||| (b2.toNat <<< 8) ||| b3.toNat := by
  simp only [wordOfBytes, BitVec.toNat_append, Nat.shiftLeft_or_distrib, ← Nat.shiftLeft_add]

/-- Word `i` of an image is that of its bytes `4i` to `4i+3`. -/
theorem bytes_of_wordsOfImage {bs : List Byte} {P : List Word} (h : wordsOfImage bs = some P) {i : Nat} {w : Word}
    (hw : P[i]? = some w) :
    ∃ b0 b1 b2 b3 : Byte, bs[4 * i]? = some b0 ∧ bs[4 * i + 1]? = some b1 ∧ bs[4 * i + 2]? = some b2 ∧
      bs[4 * i + 3]? = some b3 ∧ w = wordOfBytes b0 b1 b2 b3 := by
  induction P generalizing bs i with
  | nil => cases hw
  | cons v P ih =>
    obtain ⟨b0, b1, b2, b3, rest, rfl, hv, hrest⟩ := wordsOfImage_eq_some_cons h
    cases i with
    | zero => exact ⟨b0, b1, b2, b3, rfl, rfl, rfl, rfl, (Option.some.inj hw).symm.trans hv⟩
    | succ i => exact ih hrest hw

/-- Settles O11: each word of a loaded image is its four bytes, side by side. -/
theorem imageWordsAreBigEndian : Obligations.ImageWordsAreBigEndian := by
  intro bs P h
  have hwords := loadImage_eq_ok.mp h
  refine ⟨length_of_wordsOfImage hwords, fun i w hw => ?_⟩
  obtain ⟨b0, b1, b2, b3, h0, h1, h2, h3, rfl⟩ := bytes_of_wordsOfImage hwords hw
  exact ⟨b0, b1, b2, b3, h0, h1, h2, h3, wordOfBytes_toNat b0 b1 b2 b3⟩

end Sys2Proof

namespace Sys2Proof.Machine

/-! ### What an instruction writes, and its event (60_exceptions.md R162) -/

/-- The one register an instruction can write is the one it names. -/
theorem ExecResult.readReg_of_ne {s t : State} {i : Instr} (h : ExecResult s i t) {q : RegIndex} (hq : q ≠ i.reg) :
    t.readReg q = s.readReg q := by
  cases h with
  | loadConstant r operand => exact s.writeReg_readReg_of_ne _ hq
  | loadMemory r operand a _ => exact s.writeReg_readReg_of_ne _ hq
  | storeToMemory r operand a _ => rfl
  | unaryMinus r operand a _ => rfl
  | outOfRange _ _ _ => rfl

theorem ExecResult.mem_wf {s t : State} {i : Instr} (h : ExecResult s i t) (hmem : Memory.wf s.mem = true) :
    Memory.wf t.mem = true := by
  cases h with
  | loadConstant r operand => exact hmem
  | loadMemory r operand a _ => exact hmem
  | storeToMemory r operand a _ => exact s.memWrite_wf a _ hmem
  | unaryMinus r operand a _ => exact s.memWrite_wf a _ hmem
  | outOfRange _ _ _ => exact hmem

/-- An instruction completes with an event of its own, or halts in place. -/
theorem ExecResult.retired_eventOf {s t : State} {i : Instr} (h : ExecResult s i t) :
    (∃ m e, Retired m e s t ∧ EventOf i ⟨s.pc, m, e⟩) ∨ HaltsInPlace s t := by
  cases h with
  | loadConstant r operand => exact .inl ⟨_, _, .of_writeReg .., .loadConstant s.pc r operand⟩
  | loadMemory r operand a ha =>
    exact .inl ⟨_, _, .of_writeReg .., .loadMemory s.pc r operand a _ (validate_eq_some.mp ha).symm⟩
  | storeToMemory r operand a ha =>
    exact .inl ⟨_, _, .of_memWrite .., .storeToMemory s.pc r operand a _ (validate_eq_some.mp ha).symm⟩
  | unaryMinus r operand a ha =>
    exact .inl ⟨_, _, .of_memWrite .., .unaryMinus s.pc r operand a _ (validate_eq_some.mp ha).symm⟩
  | outOfRange _ _ _ => exact .inr (FaultTaken.of_takeFault ..).haltsInPlace

/-- A step runs the instruction it fetched, or halts in place. -/
theorem StepResult.exec_or_haltsInPlace {s t : State} (h : StepResult s t) :
    (∃ w i, s.program[s.pc]? = some w ∧ decode w = .ok i ∧ ExecResult s i t) ∨ HaltsInPlace s t := by
  cases h with
  | halted hs => exact .inr ⟨rfl, rfl, fun _ => rfl, fun _ => rfl, rfl, hs⟩
  | endOfSequence _ _ => exact .inr ⟨rfl, rfl, fun _ => rfl, fun _ => rfl, rfl, by simp⟩
  | unknownOpcode _ w _ _ _ => exact .inr (FaultTaken.of_takeFault s _ w).haltsInPlace
  | instruction _ w hw i hd _ ht => exact .inl ⟨w, i, hw, hd, ht⟩

/-! ### `pc`, the program and the memory's form (10_state.md R32, R34) -/

theorem step_program {s t : State} (h : step s = .next t) : t.program = s.program := by
  obtain ⟨-, -, m, e, hretired⟩ | hhalts := (step_cases h).retired_or_haltsInPlace
  · exact hretired.program
  · exact hhalts.program

/-- Settles O32, by induction over the steps. -/
theorem programIsImmutable : Obligations.ProgramIsImmutable :=
  steps_induction (Q := fun s t => t.program = s.program) (fun _ => rfl)
    fun _ _ _ hstep hrest => hrest.trans (step_program hstep)

theorem step_pc_le {s t : State} (h : step s = .next t) (hpc : s.pc ≤ s.program.length) :
    t.pc ≤ t.program.length :=
  (stepAdvancesOrStays s t h).2 hpc

/-- Settles O30: a step within the program answers a next state, which is within the program again. -/
theorem modelNeverStopsWithinProgram : Obligations.ModelNeverStopsWithinProgram := by
  intro s hpc n
  induction n generalizing s with
  | zero => exact ⟨s, rfl, hpc⟩
  | succ n ih =>
    obtain ⟨u, hstep, -⟩ := step_result hpc
    obtain ⟨t, hsteps, ht⟩ := ih u (step_pc_le hstep hpc)
    exact ⟨t, by rw [steps, hstep]; exact hsteps, ht⟩

/-- Settles O31: a run takes its first step, which is the model's stop. -/
theorem stepAboveProgramStops : Obligations.StepAboveProgramStops := by
  intro s hrun hpc
  have hstep := step_outside hrun hpc
  refine ⟨hstep, ?_⟩
  rw [run, runWithin, if_pos hrun, hstep]

/-- Settles O34: `pc` is 0 and no cell is listed. -/
theorem resetMeetsStoreInv : Obligations.ResetMeetsStoreInv := fun P =>
  ⟨Nat.zero_le P.length, Memory.wf_nil⟩

theorem step_mem_wf {s t : State} (h : step s = .next t) (hmem : Memory.wf s.mem = true) :
    Memory.wf t.mem = true := by
  cases step_cases h with
  | halted => exact hmem
  | endOfSequence => exact hmem
  | unknownOpcode => exact hmem
  | instruction _ _ _ _ _ _ ht => exact ht.mem_wf hmem

/-- Settles O35: `pc` and the memory are kept apart from each other. -/
theorem stepKeepsStoreInv : Obligations.StepKeepsStoreInv := fun _ _ hinv hstep =>
  ⟨step_pc_le hstep hinv.pc_le, step_mem_wf hstep hinv.mem_wf⟩

/-! ### The status and the fault record (10_state.md R40 to R43) -/

section Record
variable {s : State}

/-- While the block runs, the invariant says that no fault is recorded. -/
theorem recordInv_of_run (hrun : s.status = .run) :
    RecordInv s ↔ s.fcause = .none ∧ s.findex = 0 ∧ s.fword = 0 := by
  rw [RecordInv, hrun]

theorem RecordInv.endOfSequence (h : RecordInv s) (hrun : s.status = .run) (hpc : s.pc = s.program.length) :
    RecordInv s.endOfSequence := by
  obtain ⟨hcause, hindex, hword⟩ := (recordInv_of_run hrun).mp h
  exact ⟨hcause, hindex, hword, hpc⟩

/-- Taking the fault of the word at `pc` makes the record that the invariant asks for, whatever it was before. -/
theorem RecordInv.of_takeFault {w : Word} {c : FaultCause} (hw : s.program[s.pc]? = some w) (hf : FaultsWith w c) :
    RecordInv (s.takeFault c w) :=
  ⟨rfl, hw, hf⟩

theorem RecordInv.retired {m : Mnemonic} {e : Effect} {t : State} (h : RecordInv s) (hrun : s.status = .run)
    (ht : Retired m e s t) : RecordInv t := by
  obtain ⟨hcause, hindex, hword⟩ := (recordInv_of_run hrun).mp h
  obtain ⟨hstatus, hcause', hindex', hword'⟩ := ht.record
  exact (recordInv_of_run (hstatus.trans hrun)).mpr
    ⟨hcause'.trans hcause, hindex'.trans hindex, hword'.trans hword⟩

theorem RecordInv.wordResult {w : Word} {t : State} (h : RecordInv s) (hrun : s.status = .run)
    (hw : s.program[s.pc]? = some w) (hstep : step s = .next t) : RecordInv t := by
  obtain ⟨u, hu, hresult⟩ := step_wordResult hrun hw
  obtain rfl := Host.Outcome.next.inj (hu.symm.trans hstep)
  cases hresult with
  | faulted c hf => exact .of_takeFault hw hf
  | retired _ _ _ _ ht => exact h.retired hrun ht

end Record

/-- Settles O36: the block runs, and the record is clear. -/
theorem resetMeetsRecordInv : Obligations.ResetMeetsRecordInv := fun _ => ⟨rfl, rfl, rfl⟩

/-- Settles O37: a word takes its own fault or leaves the record alone. -/
theorem stepKeepsRecordInv : Obligations.StepKeepsRecordInv := by
  intro s t hinv hstep
  cases step_cases hstep with
  | halted => exact hinv
  | endOfSequence hrun hpc => exact hinv.endOfSequence hrun hpc
  | unknownOpcode hrun w hw => exact hinv.wordResult hrun hw hstep
  | instruction hrun w hw => exact hinv.wordResult hrun hw hstep

/-! ### The trace and the program (10_state.md R45, 60_exceptions.md R162) -/

section Trace
variable {s t : State}

/-- Settles O38: no instruction has completed, and there is no event. -/
theorem resetMeetsTraceInv : Obligations.ResetMeetsTraceInv := fun _ =>
  ⟨rfl, fun _ _ he => by simp at he⟩

theorem TraceInv.haltsInPlace (h : TraceInv s) (ht : HaltsInPlace s t) : TraceInv t where
  length := by rw [ht.trace, ht.pc, h.length]
  events := by rw [ht.trace, ht.program]; exact h.events

/-- The event added is the one numbered `pc`; the earlier ones are as before. -/
theorem TraceInv.retired {w : Word} {i : Instr} {m : Mnemonic} {e : Effect} (h : TraceInv s)
    (hw : s.program[s.pc]? = some w) (hd : decode w = .ok i) (ht : Retired m e s t)
    (hevent : EventOf i ⟨s.pc, m, e⟩) : TraceInv t where
  length := by rw [ht.trace, ht.pc, List.length_append, h.length, List.length_singleton]
  events n f hf := by
    rw [ht.trace] at hf
    rw [ht.program]
    rcases Nat.lt_or_ge n s.trace.length with hlt | hge
    · rw [List.getElem?_append_left hlt] at hf
      exact h.events n f hf
    · rw [List.getElem?_append_right hge, List.getElem?_singleton] at hf
      obtain ⟨hlast, hf⟩ := Option.ite_none_right_eq_some.mp hf
      obtain rfl := Option.some.inj hf
      have hlen := h.length
      have hn : n = s.pc := by omega
      exact ⟨hn.symm, w, i, hn ▸ hw, hd, hevent⟩

end Trace

/-- Settles O39: the instruction that completes adds its own event, and every other step adds none. -/
theorem stepKeepsTraceInv : Obligations.StepKeepsTraceInv := by
  intro s t hinv hstep
  obtain ⟨w, i, hw, hd, hresult⟩ | hhalts := (step_cases hstep).exec_or_haltsInPlace
  · obtain ⟨m, e, hretired, hevent⟩ | hhalts := hresult.retired_eventOf
    · exact hinv.retired hw hd hretired hevent
    · exact hinv.haltsInPlace hhalts
  · exact hinv.haltsInPlace hhalts

/-! ### The trace accounts for every write (20_memory.md R62) -/

/-- The events `es` account for what changed in the registers and the cells from `s` to `t`. -/
structure ReplaysWith (es : List RetireEvent) (s t : State) : Prop where
  trace : t.trace = s.trace ++ es
  regs : ∀ r, t.readReg r = regAfter r (s.readReg r) es
  cells : ∀ a, t.memRead a = cellAfter a (s.memRead a) es

section Replay
variable {s t u : State} {es fs : List RetireEvent}

theorem ReplaysWith.refl (s : State) : ReplaysWith [] s s :=
  ⟨(List.append_nil _).symm, fun _ => rfl, fun _ => rfl⟩

theorem ReplaysWith.trans (h : ReplaysWith es s t) (h' : ReplaysWith fs t u) : ReplaysWith (es ++ fs) s u where
  trace := by rw [h'.trace, h.trace, List.append_assoc]
  regs r := by rw [h'.regs, h.regs, regAfter_append]
  cells a := by rw [h'.cells, h.cells, cellAfter_append]

theorem HaltsInPlace.replaysWith_nil (h : HaltsInPlace s t) : ReplaysWith [] s t :=
  ⟨h.trace.trans (List.append_nil _).symm, h.regs, h.cells⟩

/-- Completion after a register write is replayed by an event that says so. -/
theorem ReplaysWith.of_writeReg (s : State) (r : RegIndex) (v : Value) (m : Mnemonic) (e : Effect)
    (hreg : (RetireEvent.mk s.pc m e).regWrite = some (r, v)) (hcell : (RetireEvent.mk s.pc m e).cellWrite = none) :
    ReplaysWith [⟨s.pc, m, e⟩] s ((s.writeReg r v).retire m e) where
  trace := rfl
  regs q := by simp only [regAfter, hreg, State.retire_readReg, State.writeReg_readReg, eq_comm]
  cells a := by simp only [cellAfter, hcell, State.retire_memRead, State.writeReg_memRead]

/-- Completion after a cell write is replayed by an event that says so. -/
theorem ReplaysWith.of_memWrite (s : State) (a : CellIndex) (v : Value) (m : Mnemonic) (e : Effect)
    (hreg : (RetireEvent.mk s.pc m e).regWrite = none) (hcell : (RetireEvent.mk s.pc m e).cellWrite = some (a, v)) :
    ReplaysWith [⟨s.pc, m, e⟩] s ((s.memWrite a v).retire m e) where
  trace := rfl
  regs q := by simp only [regAfter, hreg, State.retire_readReg, State.memWrite_readReg]
  cells b := by simp only [cellAfter, hcell, State.retire_memRead, State.memWrite_memRead, eq_comm]

theorem ExecResult.replays {i : Instr} (h : ExecResult s i t) : ∃ es, ReplaysWith es s t := by
  cases h with
  | loadConstant r operand => exact ⟨_, .of_writeReg s r _ _ _ rfl rfl⟩
  | loadMemory r operand a _ => exact ⟨_, .of_writeReg s r _ _ _ rfl rfl⟩
  | storeToMemory r operand a _ => exact ⟨_, .of_memWrite s a _ _ _ rfl rfl⟩
  | unaryMinus r operand a _ => exact ⟨_, .of_memWrite s a _ _ _ rfl rfl⟩
  | outOfRange _ _ _ => exact ⟨_, (FaultTaken.of_takeFault ..).haltsInPlace.replaysWith_nil⟩

theorem step_replays (h : step s = .next t) : ∃ es, ReplaysWith es s t := by
  obtain ⟨_, _, -, -, hresult⟩ | hhalts := (step_cases h).exec_or_haltsInPlace
  · exact hresult.replays
  · exact ⟨_, hhalts.replaysWith_nil⟩

theorem steps_replay {n : Nat} (h : steps n s = .next t) : ∃ es, ReplaysWith es s t := by
  refine steps_induction (Q := fun s t => ∃ es, ReplaysWith es s t) (fun s => ⟨_, .refl s⟩) ?_ n s t h
  rintro s t u hstep ⟨fs, hrest⟩
  obtain ⟨es, hfirst⟩ := step_replays hstep
  exact ⟨es ++ fs, hfirst.trans hrest⟩

/-- A trace that accounts for the state up to `s` does so up to `t`. -/
theorem ReplayInv.replaysWith (h : ReplayInv s) (ht : ReplaysWith es s t) : ReplayInv t where
  regs r := by rw [ht.regs, ht.trace, regAfter_append, h.regs]
  cells a := by rw [ht.cells, ht.trace, cellAfter_append, h.cells]

end Replay

/-- Settles O40: no event has written anything, and everything is 0. -/
theorem resetMeetsReplayInv : Obligations.ResetMeetsReplayInv := fun P =>
  ⟨State.resetWith_readReg P, State.resetWith_memRead P⟩

/-- Settles O41: a step is replayed by the events it appends. -/
theorem stepKeepsReplayInv : Obligations.StepKeepsReplayInv := by
  intro s t hinv hstep
  obtain ⟨es, ht⟩ := step_replays hstep
  exact hinv.replaysWith ht

/-! ### A cell between two writes (40_data_movement.md R123, 41_arithmetic.md R143) -/

/-- Events of which none writes a cell leave its replayed value as it was. -/
theorem cellAfter_of_no_write {a : CellIndex} {es : List RetireEvent}
    (h : ∀ e ∈ es, ∀ v, e.cellWrite ≠ some (a, v)) (v : Value) : cellAfter a v es = v := by
  induction es generalizing v with
  | nil => rfl
  | cons e es ih =>
    have hrest := ih fun f hf => h f (List.mem_cons_of_mem e hf)
    rw [cellAfter, hrest]
    split
    next b u hwrite =>
      refine if_neg fun hba => ?_
      exact h e List.mem_cons_self u (hba ▸ hwrite)
    next => rfl

theorem memRead_of_noWriteBetween {s t : State} {a : CellIndex} {n : Nat} (h : steps n s = .next t)
    (hno : NoWriteBetween a s t) : t.memRead a = s.memRead a := by
  obtain ⟨es, hreplay⟩ := steps_replay h
  obtain ⟨fs, htrace, hfs⟩ := hno
  obtain rfl : es = fs := List.append_cancel_left (hreplay.trace.symm.trans htrace)
  rw [hreplay.cells, cellAfter_of_no_write hfs]

theorem AboutToRun.step_eq {s : State} {i : Instr} (h : AboutToRun s i) : step s = exec i s := by
  obtain ⟨hrun, w, hw, hd⟩ := h
  exact step_of_decode hrun hw hd

/-- The state after a step that is about to run an instruction whose outcome is known. -/
theorem AboutToRun.eq_of_exec {s t u : State} {i : Instr} (h : AboutToRun s i) (hstep : step s = .next t)
    (hexec : exec i s = .next u) : t = u :=
  Host.Outcome.next.inj (hstep.symm.trans (h.step_eq.trans hexec))

theorem AboutToRun.store {s t : State} {r : RegIndex} {operand : Operand} {a : CellIndex}
    (ha : validate operand = some a) (h : AboutToRun s (.storeToMemory r operand)) (hstep : step s = .next t) :
    t.memRead a = s.readReg r := by
  rw [h.eq_of_exec hstep (exec_storeToMemory_of_valid r s ha), State.retire_memRead, State.memWrite_memRead_same]

theorem AboutToRun.load {s t : State} {r : RegIndex} {operand : Operand} {a : CellIndex}
    (ha : validate operand = some a) (h : AboutToRun s (.loadMemory r operand)) (hstep : step s = .next t) :
    t.readReg r = s.memRead a := by
  rw [h.eq_of_exec hstep (exec_loadMemory_of_valid r s ha), State.retire_readReg, State.writeReg_readReg_same]

theorem AboutToRun.negation {s t : State} {r : RegIndex} {operand : Operand} {a : CellIndex}
    (ha : validate operand = some a) (h : AboutToRun s (.unaryMinus r operand)) (hstep : step s = .next t) :
    t.memRead a = negate (s.memRead a) := by
  rw [h.eq_of_exec hstep (exec_unaryMinus_of_valid r s ha), State.retire_memRead, State.memWrite_memRead_same]

/-- Settles O48: from the load back to the cell, through the steps between, to the store. -/
theorem loadReturnsLastStore : Obligations.LoadReturnsLastStore := by
  intro s0 s1 s2 s3 r q operand a n ha hstore hstep0 hsteps hno hload hstep2
  calc s3.readReg q = s2.memRead a := hload.load ha hstep2
    _ = s1.memRead a := memRead_of_noWriteBetween hsteps hno
    _ = s0.readReg r := hstore.store ha hstep0

theorem negate_negate (v : Value) : negate (negate v) = v := by
  rw [negate, negate, neg_neg]

/-- Settles O49: negation is its own inverse, at the most negative value too. -/
theorem doubleNegationRestoresCell : Obligations.DoubleNegationRestoresCell := by
  intro s0 s1 s2 s3 r q operand a n ha hneg0 hstep0 hsteps hno hneg2 hstep2
  calc s3.memRead a = negate (s2.memRead a) := hneg2.negation ha hstep2
    _ = negate (s1.memRead a) := by rw [memRead_of_noWriteBetween hsteps hno]
    _ = negate (negate (s0.memRead a)) := by rw [hneg0.negation ha hstep0]
    _ = s0.memRead a := negate_negate _

end Sys2Proof.Machine

namespace Sys2Proof.Machine

/-! ### Negation and its range (41_arithmetic.md R140, R142) -/

/-- Settles O17: negation is that of a 32-bit word. -/
theorem negationIsModular : Obligations.NegationIsModular :=
  ⟨fun v => BitVec.toNat_neg v, BitVec.neg_zero 32, BitVec.neg_intMin⟩

theorem InRunRange.ne_intMin {v : Value} (h : InRunRange v) : v ≠ BitVec.intMin 32 := by
  rintro rfl
  obtain ⟨hlow, -⟩ := h
  exact absurd hlow (by decide)

theorem InRunRange.negate_toInt {v : Value} (h : InRunRange v) : (negate v).toInt = -v.toInt :=
  BitVec.toInt_neg_of_ne_intMin h.ne_intMin

theorem InRunRange.negate {v : Value} (h : InRunRange v) : InRunRange (negate v) := by
  have hneg := h.negate_toInt
  obtain ⟨hlow, hhigh⟩ := h
  constructor <;> omega

theorem inRunRange_zero : InRunRange 0 := by
  constructor <;> decide

/-- An immediate is a number below 2^20, so its sign bit is clear. -/
theorem inRunRange_immediate (operand : Operand) : InRunRange (immediate operand) := by
  have hnat : (immediate operand).toNat < 2 ^ 20 := by
    rw [immediate_toNat]
    exact operand.isLt
  have hint : (immediate operand).toInt = (immediate operand).toNat := BitVec.toInt_eq_toNat_of_lt (by omega)
  constructor <;> omega

section Range
variable {s t : State}

theorem RangeInv.haltsInPlace (h : RangeInv s) (ht : HaltsInPlace s t) : RangeInv t where
  regs r := by rw [ht.regs]; exact h.regs r
  cells a := by rw [ht.cells]; exact h.cells a

theorem RangeInv.writeReg_retire (h : RangeInv s) {v : Value} (hv : InRunRange v) (r : RegIndex) (m : Mnemonic)
    (e : Effect) : RangeInv ((s.writeReg r v).retire m e) where
  regs q := by
    rw [State.retire_readReg, State.writeReg_readReg]
    split
    · exact hv
    · exact h.regs q
  cells := h.cells

theorem RangeInv.memWrite_retire (h : RangeInv s) {v : Value} (hv : InRunRange v) (a : CellIndex) (m : Mnemonic)
    (e : Effect) : RangeInv ((s.memWrite a v).retire m e) where
  regs := h.regs
  cells b := by
    rw [State.retire_memRead, State.memWrite_memRead]
    split
    · exact hv
    · exact h.cells b

theorem RangeInv.execResult {i : Instr} (h : RangeInv s) (ht : ExecResult s i t) : RangeInv t := by
  cases ht with
  | loadConstant r operand => exact h.writeReg_retire (inRunRange_immediate operand) ..
  | loadMemory r operand a _ => exact h.writeReg_retire (h.cells a) ..
  | storeToMemory r operand a _ => exact h.memWrite_retire (h.regs r) ..
  | unaryMinus r operand a _ => exact h.memWrite_retire (h.cells a).negate ..
  | outOfRange _ _ _ => exact h.haltsInPlace (FaultTaken.of_takeFault ..).haltsInPlace

end Range

/-- Settles O42: what an instruction writes is an immediate, or a value in range, or the negation of one. -/
theorem stepKeepsRangeInv : Obligations.StepKeepsRangeInv := by
  intro s t hinv hstep
  obtain ⟨_, _, -, -, hresult⟩ | hhalts := (step_cases hstep).exec_or_haltsInPlace
  · exact hinv.execResult hresult
  · exact hinv.haltsInPlace hhalts

theorem rangeInv_resetWith (P : List Word) : RangeInv (State.resetWith P) where
  regs r := by rw [State.resetWith_readReg]; exact inRunRange_zero
  cells a := by rw [State.resetWith_memRead]; exact inRunRange_zero

theorem RangeInv.steps {n : Nat} {s t : State} (h : RangeInv s) (hsteps : steps n s = .next t) : RangeInv t :=
  steps_induction (Q := fun s t => RangeInv s → RangeInv t) (fun _ => id)
    (fun s u _ hstep hrest hs => hrest (stepKeepsRangeInv s u hs hstep)) n s t hsteps h

/-- Settles O43: a value in range is not the one whose negation wraps. -/
theorem negationExactFromReset : Obligations.NegationExactFromReset := by
  intro P n s hsteps
  have hrange := (rangeInv_resetWith P).steps hsteps
  exact ⟨hrange, fun a => (hrange.cells a).negate_toInt⟩

/-- Settles O22: the state after a negation does not speak of the register field. -/
theorem unaryMinusIgnoresRegister : Obligations.UnaryMinusIgnoresRegister := by
  intro r q operand a s ha
  rw [exec_unaryMinus_of_valid r s ha, exec_unaryMinus_of_valid q s ha]

/-! ### The registers that no word names (10_state.md R24) -/

theorem ne_reg_of_low {w : Word} {i : Instr} (hd : decode w = .ok i) {q : RegIndex} (hq : q.toNat < 16) :
    q ≠ i.reg := by
  rintro rfl
  have hhigh := reg_high_of_decode hd
  omega

theorem step_readReg_of_low {s t : State} (h : step s = .next t) {q : RegIndex} (hq : q.toNat < 16) :
    t.readReg q = s.readReg q := by
  obtain ⟨_, _, -, hd, hresult⟩ | hhalts := (step_cases h).exec_or_haltsInPlace
  · exact hresult.readReg_of_ne (ne_reg_of_low hd hq)
  · exact hhalts.regs q

/-- Settles O44: a decoded instruction names a register from 16 up, and writes no other. -/
theorem lowRegistersNeverWritten : Obligations.LowRegistersNeverWritten := fun _ _ hstep =>
  ⟨fun _ hr => step_readReg_of_low hstep hr, fun hzero r hr => (step_readReg_of_low hstep hr).trans (hzero r hr)⟩

namespace AgreeButLowRegisters

variable {s t : State} (h : AgreeButLowRegisters s t)
include h

theorem memRead (a : CellIndex) : t.memRead a = s.memRead a := by
  rw [State.memRead, State.memRead, h.mem]

theorem writeReg (r : RegIndex) (v : Value) : AgreeButLowRegisters (s.writeReg r v) (t.writeReg r v) where
  regs q hq := by rw [State.writeReg_readReg, State.writeReg_readReg, h.regs q hq]
  mem := h.mem
  pc := h.pc
  record := ⟨h.record.status, h.record.fcause, h.record.findex, h.record.fword⟩
  trace := h.trace
  program := h.program

theorem memWrite (a : CellIndex) (v : Value) : AgreeButLowRegisters (s.memWrite a v) (t.memWrite a v) where
  regs := h.regs
  mem := by rw [State.memWrite, State.memWrite, h.mem]
  pc := h.pc
  record := ⟨h.record.status, h.record.fcause, h.record.findex, h.record.fword⟩
  trace := h.trace
  program := h.program

theorem retire (m : Mnemonic) (e : Effect) : AgreeButLowRegisters (s.retire m e) (t.retire m e) where
  regs := h.regs
  mem := h.mem
  pc := by rw [State.retire_pc, State.retire_pc, h.pc]
  record := ⟨h.record.status, h.record.fcause, h.record.findex, h.record.fword⟩
  trace := by rw [State.retire_trace, State.retire_trace, h.trace, h.pc]
  program := h.program

theorem takeFault (c : FaultCause) (w : Word) : AgreeButLowRegisters (s.takeFault c w) (t.takeFault c w) where
  regs := h.regs
  mem := h.mem
  pc := h.pc
  record := ⟨rfl, rfl, h.pc, rfl⟩
  trace := h.trace
  program := h.program

theorem endOfSequence : AgreeButLowRegisters s.endOfSequence t.endOfSequence where
  regs := h.regs
  mem := h.mem
  pc := h.pc
  record := ⟨rfl, h.record.fcause, h.record.findex, h.record.fword⟩
  trace := h.trace
  program := h.program

theorem fetch {w : Word} (hw : s.program[s.pc]? = some w) : t.program[t.pc]? = some w := by
  rw [h.program, h.pc]
  exact hw

/-- An instruction whose register is 16 or more reads the same values in both states. -/
theorem execResult {i : Instr} (hi : 16 ≤ i.reg.toNat) {s' : State} (hs : ExecResult s i s') :
    ∃ t', exec i t = .next t' ∧ AgreeButLowRegisters s' t' := by
  cases hs with
  | loadConstant r operand => exact ⟨_, exec_loadConstant r t operand, (h.writeReg r _).retire _ _⟩
  | loadMemory r operand a ha =>
    rw [← h.memRead a]
    exact ⟨_, exec_loadMemory_of_valid r t ha, (h.writeReg r _).retire _ _⟩
  | storeToMemory r operand a ha =>
    have hr : t.readReg r = s.readReg r := h.regs r hi
    rw [← hr]
    exact ⟨_, exec_storeToMemory_of_valid r t ha, (h.memWrite a _).retire _ _⟩
  | unaryMinus r operand a ha =>
    rw [← h.memRead a]
    exact ⟨_, exec_unaryMinus_of_valid r t ha, (h.memWrite a _).retire _ _⟩
  | outOfRange _ hm hnone => exact ⟨_, exec_of_outOfRange t hm hnone, h.takeFault _ _⟩

end AgreeButLowRegisters

/-- Settles O45: both states take the same one of the four kinds of step. -/
theorem lowRegistersNeverRead : Obligations.LowRegistersNeverRead := by
  intro s t s' hagree hstep
  have hstatus := hagree.record.status
  cases step_cases hstep with
  | halted hs => exact ⟨t, step_of_halted (hstatus ▸ hs), hagree⟩
  | endOfSequence hrun hpc =>
    have hend : t.pc = t.program.length := by rw [hagree.pc, hagree.program, hpc]
    exact ⟨_, step_of_end (hstatus.trans hrun) hend, hagree.endOfSequence⟩
  | unknownOpcode hrun w hw e hd =>
    exact ⟨_, step_of_unknown (hstatus.trans hrun) (hagree.fetch hw) hd, hagree.takeFault _ w⟩
  | instruction hrun w hw i hd _ hresult =>
    obtain ⟨t', hexec, hagree'⟩ := hagree.execResult (reg_high_of_decode hd) hresult
    exact ⟨t', (step_of_decode (hstatus.trans hrun) (hagree.fetch hw) hd).trans hexec, hagree'⟩

/-! ### The word that a step runs (60_exceptions.md R165, R167) -/

/-- Settles O23: a running step is `exec` of what the word at `pc` decodes to. -/
theorem stepRunsDecodedInstruction : Obligations.StepRunsDecodedInstruction := fun _ _ _ hrun hw hd =>
  ⟨wellFormed_iff.mpr (reg_high_of_decode hd), step_of_decode hrun hw hd⟩

/-- What stands before the placed word is exactly `index` words long: kept, or padded up to there. -/
theorem placeWord_getElem? (P : List Word) (index : Nat) (w : Word) : (placeWord P index w)[index]? = some w := by
  have hlen : (P.take index ++ List.replicate (index - P.length) 0).length = index := by
    rw [List.length_append, List.length_take, List.length_replicate]
    omega
  rw [placeWord, List.getElem?_append_right hlen.le, hlen, Nat.sub_self]
  rfl

/-- A 32-bit table word is decoded as the word it is: cutting it into bytes and back loses nothing. -/
theorem decode_of_decodeTableWord {w : Nat} {i : Instr} (h : decodeTableWord 32 w = some i) :
    decode (BitVec.ofNat 32 (w % 2 ^ 32)) = .ok i := by
  rw [decodeTableWord, bytesOfWord, decodeBytes, wordOfBytes_bytesOfWord] at h
  cases hd : decode (BitVec.ofNat 32 (w % 2 ^ 32)) with
  | ok j => rw [hd] at h; exact congrArg _ (Option.some.inj h)
  | error e => rw [hd] at h; cases h

/-- Settles O33: the placed word stands at `pc`, where the next step fetches. -/
theorem placedWordRunsNext : Obligations.PlacedWordRunsNext := fun s _ _ h =>
  ⟨step_of_decode rfl (placeWord_getElem? s.program s.pc _) (decode_of_decodeTableWord h), rfl, rfl, rfl, rfl⟩

/-! ### The codes that the host reads (10_state.md R40, R41) -/

/-- Settles O51: each status and each cause has its own code, and none has the code 3. -/
theorem statusCodes : Obligations.StatusCodes := by
  refine ⟨fun s => ?_, fun s => ?_⟩
  · rw [State.hostStatus]
    cases s.status <;> decide
  · rw [State.hostFcause]
    cases s.fcause <;> decide

end Sys2Proof.Machine

namespace Sys2Proof

/-- Every packed word of the opcode table is recognised, whatever its register and operand are (R81). -/
theorem decode_pack (m : Mnemonic) (r : RegIndex) (a : Operand) :
    ∃ i, decode (pack (opcodeOf m) r a) = .ok i ∧ i.wellFormed = true := by
  have hop : opcodeField (pack (opcodeOf m) r a) = opcodeOf m := opcodeField_pack _ _ _ (opcodeOf_odd m)
  have hd := decode_of_opcode (congrArg BitVec.toNat hop)
  exact ⟨_, hd, wellFormed_iff.mpr (reg_high_of_decode hd)⟩

end Sys2Proof

namespace Sys2Proof.Machine

/-! ### The checks of one line (30_encoding.md R86 to R91) -/

section Tokens
variable {line : Nat} {m : Mnemonic} {t1 t2 : Text}

theorem assembleTokens_of_first_invalid (h1 : parseOperand t1 = none) :
    assembleTokens line m t1 t2 = .error (.invalidOperand line t1) := by
  rw [assembleTokens, h1]

theorem assembleTokens_of_second_invalid {v1 : Int} (h1 : parseOperand t1 = some v1) (h2 : parseOperand t2 = none) :
    assembleTokens line m t1 t2 = .error (.invalidOperand line t2) := by
  simp only [assembleTokens, h1, h2]

theorem assembleTokens_of_valid {v1 v2 : Int} (h1 : parseOperand t1 = some v1) (h2 : parseOperand t2 = some v2) :
    assembleTokens line m t1 t2 = assembleOperands line m v1 v2 := by
  simp only [assembleTokens, h1, h2]

/-- Tokens that assemble are two numbers whose ranges pass. -/
theorem assembleTokens_eq_ok {w : Word} (h : assembleTokens line m t1 t2 = .ok w) :
    ∃ v1 v2, assembleOperands line m v1 v2 = .ok w := by
  cases h1 : parseOperand t1 with
  | none => rw [assembleTokens_of_first_invalid h1] at h; cases h
  | some v1 =>
    cases h2 : parseOperand t2 with
    | none => rw [assembleTokens_of_second_invalid h1 h2] at h; cases h
    | some v2 => rw [assembleTokens_of_valid h1 h2] at h; exact ⟨v1, v2, h⟩

end Tokens

section Line
variable {marker : Char} {line : Nat} {text t0 : Text} {ts : List Text}

theorem assembleLine_of_no_tokens (h : tokens text = []) : assembleLine marker line text = .ok none := by
  rw [assembleLine, h]

theorem assembleLine_of_comment (h : tokens text = t0 :: ts) (hc : t0.head? = some marker) :
    assembleLine marker line text = .ok none := by
  simp only [assembleLine, h, if_pos hc]

theorem assembleLine_of_unknown (h : tokens text = t0 :: ts) (hc : t0.head? ≠ some marker)
    (hm : parseMnemonic t0 = none) : assembleLine marker line text = .error (.unknownInstruction line t0) := by
  simp only [assembleLine, h, if_neg hc, hm]

theorem assembleLine_of_count {m : Mnemonic} (h : tokens text = t0 :: ts) (hc : t0.head? ≠ some marker)
    (hm : parseMnemonic t0 = some m) (hlen : ts.length ≠ 2) :
    assembleLine marker line text = .error (.invalidArgumentCount line text) := by
  simp only [assembleLine, h, if_neg hc, hm]
  split
  next => exact absurd rfl hlen
  next => rfl

theorem assembleLine_of_operands {m : Mnemonic} {t1 t2 : Text} (h : tokens text = [t0, t1, t2])
    (hc : t0.head? ≠ some marker) (hm : parseMnemonic t0 = some m) :
    assembleLine marker line text = (assembleTokens line m t1 t2).map some := by
  simp only [assembleLine, h, if_neg hc, hm]

end Line

/-- Settles O54: one case for each check, in the order of the rule. -/
theorem lineChecksRunInOrder : Obligations.LineChecksRunInOrder := by
  intro marker line text t0 ts htokens hc
  refine ⟨assembleLine_of_unknown htokens hc, fun m hm => ⟨assembleLine_of_count htokens hc hm, ?_⟩⟩
  rintro t1 t2 rfl
  rw [assembleLine_of_operands htokens hc hm]
  refine ⟨fun h1 => ?_, fun v1 h1 => ⟨fun h2 => ?_, fun v2 h2 => ?_⟩⟩
  · rw [assembleTokens_of_first_invalid h1]; rfl
  · rw [assembleTokens_of_second_invalid h1 h2]; rfl
  · rw [assembleTokens_of_valid h1 h2]

/-- Settles O55: a blank line has no token, and a comment's first token begins with the marker. -/
theorem blankAndCommentLinesAreSkipped : Obligations.BlankAndCommentLinesAreSkipped := by
  refine fun marker line text => ⟨fun hblank => ?_, ?_⟩
  · have htokens : tokens (text ++ []) = tokens [] := tokens_append_blank text [] hblank
    rw [List.append_nil] at htokens
    exact assembleLine_of_no_tokens htokens
  · rintro before after rfl hbefore hmarker
    obtain ⟨t, ts, htokens⟩ := tokens_nonblank marker after hmarker
    exact assembleLine_of_comment ((tokens_append_blank before _ hbefore).trans htokens) rfl

/-! ### The words of a source text (30_encoding.md R94, R95) -/

/-- Operands that assemble are packed under the mnemonic's own opcode. -/
theorem assembleOperands_eq_ok {line : Nat} {m : Mnemonic} {v1 v2 : Int} {w : Word}
    (h : assembleOperands line m v1 v2 = .ok w) : ∃ r a, w = pack (opcodeOf m) r a := by
  cases m with
  | loadConstant =>
    obtain ⟨-, -, hw⟩ := checkRanges_eq_ok.mp h
    exact ⟨_, _, hw.symm⟩
  | loadMemory | storeToMemory | unaryMinus =>
    obtain ⟨-, -, hw⟩ := checkRanges_eq_ok.mp h
    exact ⟨_, _, hw.symm⟩

section Lines
variable {marker : Char} {n : Nat} {l : Text} {ls : List Text}

/-- A line that gives a word passed every check. -/
theorem assembleLine_eq_some {w : Word} (h : assembleLine marker n l = .ok (some w)) :
    ∃ m t1 t2, assembleTokens n m t1 t2 = .ok w := by
  cases htokens : tokens l with
  | nil => rw [assembleLine_of_no_tokens htokens] at h; cases h
  | cons t0 ts =>
    by_cases hc : t0.head? = some marker
    · rw [assembleLine_of_comment htokens hc] at h; cases h
    cases hm : parseMnemonic t0 with
    | none => rw [assembleLine_of_unknown htokens hc hm] at h; cases h
    | some m =>
      by_cases hlen : ts.length = 2
      · obtain ⟨t1, t2, rfl⟩ := List.length_eq_two.mp hlen
        rw [assembleLine_of_operands htokens hc hm] at h
        cases hw : assembleTokens n m t1 t2 with
        | error e => rw [hw] at h; cases h
        | ok u => rw [hw] at h; cases h; exact ⟨m, t1, t2, hw⟩
      · rw [assembleLine_of_count htokens hc hm hlen] at h; cases h

theorem decode_of_assembleLine {w : Word} (h : assembleLine marker n l = .ok (some w)) :
    ∃ i, decode w = .ok i ∧ i.wellFormed = true := by
  obtain ⟨m, t1, t2, htokens⟩ := assembleLine_eq_some h
  obtain ⟨v1, v2, hoperands⟩ := assembleTokens_eq_ok htokens
  obtain ⟨r, a, rfl⟩ := assembleOperands_eq_ok hoperands
  exact decode_pack m r a

/-- What assembled lines are made of: a skipped line adds nothing, and any other its word and its log entry. -/
theorem assembleLines_cons_cases {a : Assembly} (h : assembleLines marker n (l :: ls) = .ok a) :
    assembleLines marker (n + 1) ls = .ok a ∨
      ∃ w b, assembleLine marker n l = .ok (some w) ∧ assembleLines marker (n + 1) ls = .ok b ∧
        a = ⟨w :: b.words, ⟨n, l, hexOfWord w⟩ :: b.log⟩ := by
  obtain ⟨⟨r, hl⟩, b, hls⟩ := assembleLines_cons_ok h
  cases r with
  | none => rw [assembleLines, hl] at h; exact .inl h
  | some w =>
    simp only [assembleLines, hl, hls] at h
    exact .inr ⟨w, b, hl, hls, (Except.ok.inj h).symm⟩

end Lines

/-- The entry names a line of `ls`, whose first line has the number `n`, and holds that line's text. -/
def AsmLogEntry.NamesLine (n : Nat) (ls : List Text) (e : AsmLogEntry) : Prop :=
  n ≤ e.line ∧ ls[e.line - n]? = some e.text

theorem AsmLogEntry.NamesLine.head (n : Nat) (l : Text) (ls : List Text) (hex : Text) :
    AsmLogEntry.NamesLine n (l :: ls) ⟨n, l, hex⟩ :=
  ⟨Nat.le_refl n, by rw [Nat.sub_self]; rfl⟩

theorem AsmLogEntry.NamesLine.cons {n : Nat} {ls : List Text} {e : AsmLogEntry} (l : Text)
    (h : e.NamesLine (n + 1) ls) : e.NamesLine n (l :: ls) := by
  obtain ⟨hle, htext⟩ := h
  have hsucc : e.line - n = e.line - (n + 1) + 1 := by omega
  exact ⟨Nat.le_of_succ_le hle, by rw [hsucc, List.getElem?_cons_succ, htext]⟩

/-- What an assembly of the lines `ls` from number `n` on holds: recognised words, and for each a log entry with its hex
and its line. -/
structure AssemblyOf (n : Nat) (ls : List Text) (a : Assembly) : Prop where
  words : ∀ w ∈ a.words, ∃ i, decode w = .ok i ∧ i.wellFormed = true
  hex : a.log.map AsmLogEntry.hex = a.words.map hexOfWord
  lines : ∀ e ∈ a.log, e.NamesLine n ls

theorem AssemblyOf.skip {n : Nat} {ls : List Text} {a : Assembly} (l : Text) (h : AssemblyOf (n + 1) ls a) :
    AssemblyOf n (l :: ls) a :=
  ⟨h.words, h.hex, fun e he => (h.lines e he).cons l⟩

theorem AssemblyOf.cons {n : Nat} {ls : List Text} {a : Assembly} (l : Text) {w : Word}
    (h : AssemblyOf (n + 1) ls a) (hw : ∃ i, decode w = .ok i ∧ i.wellFormed = true) :
    AssemblyOf n (l :: ls) ⟨w :: a.words, ⟨n, l, hexOfWord w⟩ :: a.log⟩ where
  words := List.forall_mem_cons.mpr ⟨hw, h.words⟩
  hex := congrArg (hexOfWord w :: ·) h.hex
  lines := List.forall_mem_cons.mpr ⟨.head n l ls _, fun e he => (h.lines e he).cons l⟩

theorem assemblyOf_assembleLines {marker : Char} {ls : List Text} {n : Nat} {a : Assembly}
    (h : assembleLines marker n ls = .ok a) : AssemblyOf n ls a := by
  induction ls generalizing n a with
  | nil => cases h; exact ⟨by simp, rfl, by simp⟩
  | cons l ls ih =>
    obtain hrest | ⟨w, b, hl, hrest, rfl⟩ := assembleLines_cons_cases h
    · exact (ih hrest).skip l
    · exact (ih hrest).cons l (decode_of_assembleLine hl)

/-- Settles O57, by induction on the lines, which are numbered from 1. -/
theorem assembledWordsAreRecognised : Obligations.AssembledWordsAreRecognised := by
  intro marker source a h
  obtain ⟨hwords, hhex, hlines⟩ := assemblyOf_assembleLines h
  exact ⟨hwords, hhex, hlines⟩

/-- The digit of a 4-bit number stands at that number in the row of the sixteen digits. -/
theorem hexDigit_eq_getElem? (d : BitVec 4) : some (hexDigit d) = "0123456789ABCDEF".toList[d.toNat]? := by
  revert d
  decide

/-- Digit `n` of a word, counted from the most significant, is that of its bits from `4 * (7 - n)` up. -/
theorem hexOfWord_getElem? (w : Word) {n : Nat} (h : n < 8) :
    (hexOfWord w)[n]? = some (hexDigit (w.extractLsb' (4 * (7 - n)) 4)) := by
  interval_cases n <;> rfl

/-- Settles O58: four bits of the word are its shift by their position, modulo 16. -/
theorem hexDigitsOfWord : Obligations.HexDigitsOfWord := fun w =>
  ⟨rfl, fun n hn => by rw [hexOfWord_getElem? w hn, hexDigit_eq_getElem?, BitVec.extractLsb'_toNat]⟩

end Sys2Proof.Machine
